-- ==== Sys2Proof/Word.lean ====
section
/-! DEFINITION. The word types of the machine (rules R5, R7, R8, R20, R23, R29 of the spec).
Bit 0 of every value is its LEAST significant bit, the numbering of the spec's own pseudocode (rule R7):
the source's bit `i` of an `N`-bit value is bit `N - 1 - i` here. -/

namespace Sys2Proof

/-- A byte of memory (rule R29: "each address holds one 8-bit byte"). -/
abbrev Byte := BitVec 8

/-- A half word: 16 bits, 2 bytes (rule R11). -/
abbrev Half := BitVec 16

/-- An instruction word (rules R5, R70: `ILEN = 32`). -/
abbrev Word := BitVec 32

/-- The contents of a general register (rules R5, R20: `XLEN = 64`). -/
abbrev Dword := BitVec 64

/-- A byte address, and a value of `pc` (rules R29, R23: `EAW = 32`, `PCW = 32`). -/
abbrev Addr := BitVec 32

/-- The number of a general register, 0 to 31 (rule R20: `NGPR = 32`). -/
abbrev Reg := Fin 32

/-- The displacement field of a form-`D` instruction, 16 bits (rules R72, R76). -/
abbrev Disp := BitVec 16

end Sys2Proof
end

