-- ==== Sys2Proof/Config.lean ====
section
/-! DEFINITION. The implementation parameters of rule R6 of 00_scope.md, and the one free draw of the spec
(rule R28, decision D15). The parameters are plain data: a state carries them in its field `params`, which no
step changes (log entry 1). -/

namespace Sys2Proof

/-- `INVALID_FORM_POLICY` (rules R6, R110; decision D1): what `sthu`/`sthux` with field `RA` = 0 do. -/
inductive InvalidFormPolicy where
  | fault     -- the default: the outcome `InvalidForm`, no state change
  | snapshot  -- execute with the real `r0` as base and as destination
  deriving DecidableEq, Repr

/-- `EA_TOP_POLICY` (rules R6, R46; decision D4): what a store at `EA = 0xFFFF_FFFF` does. -/
inductive EaTopPolicy where
  | fault  -- the default: the outcome `AddressWrap`, no state change
  | wrap   -- the second byte goes to address 0
  deriving DecidableEq, Repr

/-- A range of byte addresses `[base, base + size)`. A list of them names a set of addresses. -/
structure Region where
  base : Nat
  size : Nat
  deriving DecidableEq, Repr

/-- The parameters of the step relation (rules R6, R32). -/
structure Params where
  /-- `MEM_ADMIT`: the byte addresses a store may write (rule R50, decision D5). -/
  memAdmit : List Region
  /-- `CODE_REGION`: the byte addresses that hold program text (rules R32, R55, decision D9). -/
  codeRegion : List Region
  /-- `INVALID_FORM_POLICY` (rule R110, decision D1). -/
  invalidForm : InvalidFormPolicy
  /-- `RC_IGNORED`: whether the decoder ignores bit 31 (source numbering) of an X-form word (rule R81, decision D2). -/
  rcIgnored : Bool
  /-- `EA_TOP_POLICY` (rule R46, decision D4). -/
  eaTop : EaTopPolicy
  deriving DecidableEq, Repr

/-- Rule R6's defaults. For `MEM_ADMIT` the table has none ("the claim names it"): the whole 32-bit address
space stands here (DESIGN CHOICE, log entry 4). `CODE_REGION` is "the bytes of the program": with no program
loaded, none. -/
def Params.default : Params where
  memAdmit := [⟨0, 2 ^ 32⟩]
  codeRegion := []
  invalidForm := .fault
  rcIgnored := false
  eaTop := .fault

/-- FREE VALUE (rule R28, decision D15; log entry 2). Whether a store ends a live reservation whose granule
contains `EA + 1` but not `EA`: "either ended or left live, a free draw that no proof may fix". It is applied to
the number of the draw, the reservation's holder and its address; it has no body, so nothing is provable of it. -/
opaque Config.straddleDraw (draw holder address : Nat) : Bool

end Sys2Proof
end

