-- ==== Sys2Proof/Syntax.lean ====
section
/-! DEFINITION. The instructions: one constructor per row of spec/opcode_table.json, in the table's order
(rules R3, R71 to R74, R86). Operands stand in the assembler's order `RS, RA, d` and `RS, RA, RB`. -/

namespace Sys2Proof

/-- An instruction, with every operand field its word has. The X forms carry source bit 31 (`Rc`, "record-form
flag", rule R73) as the word has it: it has no effect (rule R111), the decoder's check of it is rule R81's, and
with it an instruction determines its word, which the outcome `InvalidForm(word)` records (rule R130). -/
inductive Instr where
  /-- `sth RS, d(RA0)` — Store Half Word (rule R104). -/
  | sth (rs ra : Reg) (d : Disp)
  /-- `sthu RS, d(RA)` — Store Half Word with Update (rule R105). -/
  | sthu (rs ra : Reg) (d : Disp)
  /-- `sthux RS, RA, RB` — Store Half Word with Update Indexed (rule R106). -/
  | sthux (rs ra rb : Reg) (rc : BitVec 1)
  /-- `sthx RS, RA0, RB` — Store Half Word Indexed (rule R107). -/
  | sthx (rs ra rb : Reg) (rc : BitVec 1)
  deriving DecidableEq, Repr

end Sys2Proof
end

