-- ==== Sys2Proof/WellFormed.lean ====
section
/-! DEFINITION. Which instructions have a word that the decoder takes (rules R76 to R82). Every register number
and every displacement is legal; the one check is rule R81's, on `Rc`. The invalid form `RA = 0` of the update
forms is NOT refused here: its words "match rule R74" and it is the execution rule that gives them no meaning
(rule R82). -/

namespace Sys2Proof

/-- Rule R81: no record form exists, so `Rc` is 0, unless `RC_IGNORED` holds. -/
def rcLegal (rcIgnored : Bool) (rc : BitVec 1) : Bool := rcIgnored || rc == 0#1

/-- The instruction has a word the decoder takes, under the given value of `RC_IGNORED`. -/
def Instr.wellFormed (rcIgnored : Bool) : Instr → Bool
  | .sth _ _ _ => true
  | .sthu _ _ _ => true
  | .sthux _ _ _ rc => rcLegal rcIgnored rc
  | .sthx _ _ _ rc => rcLegal rcIgnored rc

/-- The invalid form (rules R79, R82): an update form with field `RA` = 0. Nothing else is one. -/
def Instr.isInvalidForm : Instr → Bool
  | .sth _ _ _ => false
  | .sthu _ ra _ => ra == 0
  | .sthux _ ra _ _ => ra == 0
  | .sthx _ _ _ _ => false

end Sys2Proof
end

