-- ==== Sys2Proof/Decode.lean ====
section
/-! DEFINITION. The decoder (rules R70 to R85 of 30_encoding.md), total on any word and any bytes, and after it
the encoder (rule R75). -/

namespace Sys2Proof

/-! ## Fields of a word (rules R72, R73) -/

/-- `OPCD`, source bits 0–5: `insn[31:26]`. -/
def opcdField (w : Word) : BitVec 6 := w.extractLsb' 26 6

/-- `RS`, source bits 6–10: `insn[25:21]` (rule R77). -/
def rsField (w : Word) : Reg := (w.extractLsb' 21 5).toFin

/-- `RA`, source bits 11–15: `insn[20:16]` (rules R78, R79). -/
def raField (w : Word) : Reg := (w.extractLsb' 16 5).toFin

/-- `RB`, source bits 16–20: `insn[15:11]` (rule R80). -/
def rbField (w : Word) : Reg := (w.extractLsb' 11 5).toFin

/-- `d`, source bits 16–31: `insn[15:0]` (rule R76). -/
def dField (w : Word) : Disp := w.extractLsb' 0 16

/-- `XO`, source bits 21–30: `insn[10:1]` (rule R73). -/
def xoField (w : Word) : BitVec 10 := w.extractLsb' 1 10

/-- `Rc`, source bit 31: `insn[0]` (rule R73). -/
def rcField (w : Word) : BitVec 1 := w.extractLsb' 0 1

/-! ## Decoding a word (rule R85) -/

/-- What the decoder answers for a word: an instruction, or the refusal `NotInScope(word)` (rule R84). -/
inductive Decoded where
  | instr (i : Instr)
  | notInScope (word : Word)
  deriving DecidableEq, Repr

/-- Rule R85, with rule R81's parameter `RC_IGNORED`. -/
def decodeWord (rcIgnored : Bool) (w : Word) : Decoded :=
  if opcdField w = 44#6 then
    .instr (.sth (rsField w) (raField w) (dField w))
  else if opcdField w = 45#6 then
    .instr (.sthu (rsField w) (raField w) (dField w))
  else if opcdField w = 31#6 ∧ xoField w = 407#10 ∧ rcLegal rcIgnored (rcField w) = true then
    .instr (.sthx (rsField w) (raField w) (rbField w) (rcField w))
  else if opcdField w = 31#6 ∧ xoField w = 439#10 ∧ rcLegal rcIgnored (rcField w) = true then
    .instr (.sthux (rsField w) (raField w) (rbField w) (rcField w))
  else
    .notInScope w

/-! ## Words and bytes (rule R56: big-endian) -/

/-- The word whose bytes are `b0 b1 b2 b3` in rising address order: `b0` is `insn[31:24]`. -/
def wordOfBytes (b0 b1 b2 b3 : Byte) : Word := b0 ++ b1 ++ b2 ++ b3

/-- The bytes of a word in rising address order. -/
def bytesOfWord (w : Word) : List Byte :=
  [w.extractLsb' 24 8, w.extractLsb' 16 8, w.extractLsb' 8 8, w.extractLsb' 0 8]

/-- What the decoder answers for a list of bytes: an instruction and the bytes after it, or a refusal by name.
`truncated`: fewer than the 4 bytes the decoder reads at a time (rule R70). -/
inductive DecodedBytes where
  | instr (i : Instr) (rest : List Byte)
  | notInScope (word : Word)
  | truncated (bytes : List Byte)
  deriving DecidableEq, Repr

/-- Decoding bytes: "A decoder for this spec reads 4 bytes at a time" (rule R70), big-endian (rule R56). -/
def decodeBytes (rcIgnored : Bool) : List Byte → DecodedBytes
  | b0 :: b1 :: b2 :: b3 :: rest =>
    match decodeWord rcIgnored (wordOfBytes b0 b1 b2 b3) with
    | .instr i => .instr i rest
    | .notInScope w => .notInScope w
  | bytes => .truncated bytes

/-! ## Encoding (rules R74, R75) -/

/-- A register number as a word, to be shifted to its field. -/
def regBits (r : Reg) : Word := (BitVec.ofFin (w := 5) r).setWidth 32

/-- The word of an instruction, rule R75's formulas, with `Rc` in bit 0 (`insn[0]`, rule R73). -/
def encode : Instr → Word
  | .sth rs ra d => 0xB0000000#32 ||| regBits rs <<< 21 ||| regBits ra <<< 16 ||| d.setWidth 32
  | .sthu rs ra d => 0xB4000000#32 ||| regBits rs <<< 21 ||| regBits ra <<< 16 ||| d.setWidth 32
  | .sthux rs ra rb rc =>
    0x7C00036E#32 ||| regBits rs <<< 21 ||| regBits ra <<< 16 ||| regBits rb <<< 11 ||| rc.setWidth 32
  | .sthx rs ra rb rc =>
    0x7C00032E#32 ||| regBits rs <<< 21 ||| regBits ra <<< 16 ||| regBits rb <<< 11 ||| rc.setWidth 32

/-! ## Rule R74's table: opcode word (match) and mask -/

/-- The opcode word of an instruction: "the instruction with all operand fields zero" (rule R74). -/
def Instr.opcodeWord : Instr → Word
  | .sth _ _ _ => 0xB0000000#32
  | .sthu _ _ _ => 0xB4000000#32
  | .sthux _ _ _ _ => 0x7C00036E#32
  | .sthx _ _ _ _ => 0x7C00032E#32

/-- The mask of form `D` (rule R74). -/
def dMask : Word := 0xFC000000#32

/-- The mask of form `X` (rule R74): `0xFC0007FF`, or `0xFC0007FE` with `RC_IGNORED`. -/
def xMask (rcIgnored : Bool) : Word := if rcIgnored then 0xFC0007FE#32 else 0xFC0007FF#32

/-- The mask of an instruction's row (rule R74). -/
def Instr.mask (rcIgnored : Bool) : Instr → Word
  | .sth _ _ _ => dMask
  | .sthu _ _ _ => dMask
  | .sthux _ _ _ _ => xMask rcIgnored
  | .sthx _ _ _ _ => xMask rcIgnored

/-! ## The host's reading of the decoder -/

/-- The instruction the decoder reads from the bits `w` (bit 0 the least significant bit of the one word), laid
out as bytes in the hardware's order, under the default `RC_IGNORED = false`. -/
def decodeTableWord (nbits w : Nat) : Option Instr :=
  match decodeBytes Params.default.rcIgnored (bytesOfWord (BitVec.ofNat 32 (w % 2 ^ nbits))) with
  | .instr i _ => some i
  | .notInScope _ => none
  | .truncated _ => none

end Sys2Proof
end

