-- ==== Sys2Proof/Machine/State.lean ====
section
/-! DEFINITION. The state of the machine, its outcomes, and the state after reset (rules R20 to R33 of 10_state.md,
R130 of 60_exceptions.md, R160 of 70_reset_and_hazards.md). Plain data throughout. -/

namespace Sys2Proof.Machine

/-- Memory as (address, byte) pairs, addresses strictly rising (`Memory.wf` in Machine/Ops.lean). An address that is
not listed holds no known byte: the spec gives memory no initial contents (rule R31), and reading such a byte yields
nothing (DESIGN CHOICE, log entry 7). -/
abbrev Memory := List Host.Cell

/-- A register file whose number of registers and whose widths the spec does not give: (number, contents) pairs. A
register that is not listed holds 0 (DESIGN CHOICE, log entry 6). -/
abbrev RegFile := List (Nat × Nat)

/-- The status register XER (rule R25): "at least the three fields `CA`, `OV` and `SO`". Positions, widths and the
other fields are not given, so each field is a number and the others stand in `other` by a number of their own
(log entry 6). -/
structure Xer where
  ca    : Nat
  ov    : Nat
  so    : Nat
  other : RegFile
  deriving DecidableEq, Repr

/-- A live load-reservation (rule R28: "which agents hold a load-reservation and on which addresses"). -/
structure Reservation where
  holder  : Nat
  address : Addr
  deriving DecidableEq, Repr

/-- The reservation table (rule R28): whether it is enabled, `RES_GRANULE` in bytes, and the live reservations. -/
structure ReservationTable where
  enabled : Bool
  granule : Nat
  live    : List Reservation
  deriving DecidableEq, Repr

/-- The state of the machine. -/
structure State where
  /-- General registers `r0` to `r31` (rule R20); none is hardwired. -/
  gpr : Vector Dword 32
  /-- The program counter (rules R22, R23). -/
  pc : Addr
  /-- The condition register, by field number (rule R24). -/
  cr : RegFile
  /-- The status register XER (rule R25). -/
  xer : Xer
  /-- Floating-point registers, by number (rule R27). -/
  fpr : RegFile
  /-- Vector registers, by number (rule R27). -/
  vr : RegFile
  /-- The one byte-addressed space (rules R29, R56), data and program text alike. -/
  mem : Memory
  /-- The reservation table, absent by default (rules R6, R28). -/
  reservation : Option ReservationTable
  /-- THE MODEL'S OWN, not the spec's: the number of the next free draw (log entry 2). -/
  draws : Nat
  /-- The parameters of the step relation (rules R6, R32), which no step changes (log entry 1). -/
  params : Params
  deriving DecidableEq, Repr

/-- The faults of rule R130, with the values it records, and two of the model's own at instruction fetch. The
faulted state is never final (rule R131). -/
inductive Fault where
  /-- Raised by `sthu`, `sthux` with field `RA` = 0 under `INVALID_FORM_POLICY = fault` (rules R110, R130). Safe. -/
  | invalidForm (word : Word) (pc : Addr)
  /-- Raised by all four at `EA = 0xFFFF_FFFF` under `EA_TOP_POLICY = fault` (rules R46, R130). Safe. -/
  | addressWrap (ea pc : Addr)
  /-- Raised by all four where `EA` or `EA + 1` is not in `MEM_ADMIT` (rules R50, R130). Safe. -/
  | storeNotAdmitted (ea pc : Addr)
  /-- Raised by all four where `pc + 4` is not below `2^32` (rules R23, R130). Safe. -/
  | pcWrap (pc : Addr)
  /-- Raised by the fetch where `pc` is not a multiple of 4, which rule R23 requires of it (log entry 10). Safe. -/
  | pcMisaligned (pc : Addr)
  /-- Raised by the fetch where an address of `CODE_REGION` holds no known byte (log entries 7 and 10). Safe. -/
  | textUnwritten (pc : Addr)
  deriving DecidableEq, Repr

/-- The refusals of rule R130, with the values it records, one of the model's own at instruction fetch, and the
refusal of an instruction that has no meaning yet. -/
inductive Refusal where
  /-- Raised by `exec` for an instruction that has no meaning yet; no instruction of this model is one. Safe. -/
  | notModelled (mnemonic : String)
  /-- Raised by the fetch where the word at `pc` is none of the four instructions (rules R84, R130). Safe. -/
  | notInScope (word : Word) (pc : Addr)
  /-- Raised by all four where `EA` or `EA + 1` is in `CODE_REGION` (rules R55, R130). Safe. -/
  | storeToCode (ea pc : Addr)
  /-- Raised by the fetch where `pc` is not in `CODE_REGION`: there is no program text to fetch, as at the end of a
  run (rules R56, R162; log entry 10). Safe. -/
  | fetchOutsideText (pc : Addr)
  deriving DecidableEq, Repr

/-- One of the two ways a step can stop (rule R130's "kind"). -/
inductive Stop where
  | fault (f : Fault)
  | refusal (r : Refusal)
  deriving DecidableEq, Repr

/-- The start address of the spec's own programs (95_test_vectors.md, section 3: `BASE = 0x0001_0000`); the spec has
no reset vector (rule R160; DESIGN CHOICE, log entry 5). -/
def State.resetPc : Addr := 0x00010000#32

/-- The machine right after reset. The spec gives no reset value but that the reservation table is absent by default
and the parameters' defaults (rules R6, R31, R160); the rest is named in log entries 2 to 7. -/
def State.reset : State where
  gpr := Vector.replicate 32 0#64
  pc := State.resetPc
  cr := []
  xer := { ca := 0, ov := 0, so := 0, other := [] }
  fpr := []
  vr := []
  mem := []
  reservation := none
  draws := 0
  params := Params.default

end Sys2Proof.Machine
end

