-- ==== Sys2Proof/Machine/Ops.lean ====
section
/-! DEFINITION. The named operations over registers, memory, the reservation table and the program text, and the
one shared store that all four meanings end in. -/

namespace Sys2Proof.Machine

/-! ## Stopping (rules R130, R131) -/

/-- `raise <Outcome>(info)` (rule R131): the step ends with the outcome and changes no state. -/
def Stop.outcome : Stop → Host.Outcome State Fault Refusal
  | .fault f => .fault f
  | .refusal r => .refused r

/-! ## Registers (rules R9, R20, R22) -/

/-- `x[i]` (rule R9). `x[0]` is the value of `r0`; it is not zero. -/
def State.x (s : State) (i : Reg) : Dword := s.gpr[i]

/-- `x[i] <- v` (rule R9). -/
def State.setX (s : State) (i : Reg) (v : Dword) : State := { s with gpr := s.gpr.set i v }

/-- `pc <- pc + 4` (rules R22, R114). Rule R23's check `PcWrap` stands in `State.checkStore`. -/
def State.advancePc (s : State) : State := { s with pc := s.pc + 4#32 }

/-- The contents of register `n` of a file of unknown size (log entry 6). -/
def RegFile.get (f : RegFile) (n : Nat) : Nat :=
  match f with
  | [] => 0
  | (k, v) :: rest => if k = n then v else RegFile.get rest n

/-! ## Sets of addresses (rule R6: `MEM_ADMIT`, `CODE_REGION`) -/

/-- The address lies in the range. -/
def regionHolds (r : Region) (a : Nat) : Bool := decide (r.base ≤ a) && decide (a < r.base + r.size)

/-- The address lies in one of the ranges. -/
def inRegions (rs : List Region) (a : Nat) : Bool := rs.any fun r => regionHolds r a

/-- The byte address is in `MEM_ADMIT` (rule R50). -/
def State.admits (s : State) (a : Addr) : Bool := inRegions s.params.memAdmit a.toNat

/-- The byte address is in `CODE_REGION` (rule R55). -/
def State.isCode (s : State) (a : Addr) : Bool := inRegions s.params.codeRegion a.toNat

/-! ## Memory, byte by byte (rule R29) -/

/-- The byte listed at an address, if there is one. -/
def Memory.read : Memory → Nat → Option Byte
  | [], _ => none
  | (k, v) :: rest, a => if k = a then some v else Memory.read rest a

/-- Writing a byte: the cell of the address is replaced, or takes its place in the rising order. -/
def Memory.write : Memory → Nat → Byte → Memory
  | [], a, b => [(a, b)]
  | (k, v) :: rest, a, b =>
    if a < k then (a, b) :: (k, v) :: rest
    else if k = a then (a, b) :: rest
    else (k, v) :: Memory.write rest a b

/-- The canonical form: addresses strictly rising and inside the 32-bit space. An address that is not listed reads
as nothing, so no listed byte can equal what an unlisted address reads as. -/
def Memory.wf : Memory → Bool
  | [] => true
  | (k, _) :: rest => decide (k < 2 ^ 32) && (rest.all fun c => decide (k < c.1)) && Memory.wf rest

/-- The byte at an address (rule R29). -/
def State.readByte (s : State) (a : Addr) : Option Byte := Memory.read s.mem a.toNat

/-- `mem[a] <- b`. -/
def State.writeByte (s : State) (a : Addr) (b : Byte) : State := { s with mem := Memory.write s.mem a.toNat b }

/-! ## Wider accesses: big-endian, decided here once (rules R9, R41, R43, R44) -/

/-- The more significant byte of a half word, the one stored at `EA` (rule R41). -/
def highByte (v : Half) : Byte := v.extractLsb' 8 8

/-- The less significant byte of a half word, the one stored at `EA + 1` (rule R41). -/
def lowByte (v : Half) : Byte := v.extractLsb' 0 8

/-- The two assignments of `MemWrite(addr, 2, v)` (rule R44); its three `require` lines are in `State.checkStore`.
At `0xFFFF_FFFF` the second byte goes to address 0, which a meaning reaches under `EA_TOP_POLICY = wrap` only (rule R46,
decision D4, log entry 15). -/
def State.memWrite2 (s : State) (addr : Addr) (v : Half) : State :=
  (s.writeByte addr (highByte v)).writeByte (addr + 1#32) (lowByte v)

/-- `MemRead(addr, 2)`, big-endian (rules R9, R43). A read that crosses `0xFFFF_FFFF` goes on at address 0, whatever
`EA_TOP_POLICY` is: the spec is silent on it (DESIGN CHOICE, log entry 26). -/
def State.memRead2 (s : State) (addr : Addr) : Option Half :=
  match s.readByte addr, s.readByte (addr + 1#32) with
  | some b0, some b1 => some (b0 ++ b1)
  | _, _ => none

/-- `MemRead(addr, 4)`, big-endian (rules R9, R43, R56). A read that crosses `0xFFFF_FFFF` goes on at address 0, whatever
`EA_TOP_POLICY` is: the spec is silent on it (DESIGN CHOICE, log entry 26). A fetch never crosses, since its `pc` is a
multiple of 4. -/
def State.memRead4 (s : State) (addr : Addr) : Option Word :=
  match s.readByte addr, s.readByte (addr + 1#32), s.readByte (addr + 2#32), s.readByte (addr + 3#32) with
  | some b0, some b1, some b2, some b3 => some (wordOfBytes b0 b1 b2 b3)
  | _, _, _, _ => none

/-! ## The reservation table (rule R28) -/

/-- The granules are the aligned blocks of `RES_GRANULE` bytes: this is the number of the one that holds `a`
(DEDUCED, log entry 20). -/
def granuleOf (granule : Nat) (a : Addr) : Nat := a.toNat / granule

/-- The reservation's granule holds the byte address. -/
def Reservation.covers (r : Reservation) (granule : Nat) (a : Addr) : Bool :=
  granuleOf granule r.address == granuleOf granule a

/-- Whether a live reservation outlives a half-word store at `ea`: not where its granule holds `ea`; where it holds
`ea + 1` only, as the free draw says (decision D15); else it does. -/
def Reservation.survives (r : Reservation) (granule draw : Nat) (ea : Addr) : Bool :=
  if r.covers granule ea then false
  else if r.covers granule (ea + 1#32) then !Config.straddleDraw draw r.holder r.address.toNat
  else true

/-- `ResInvalidate(ea)` (rule R28): nothing unless the table is present, enabled, and has an active reserver. -/
def State.resInvalidate (s : State) (ea : Addr) : State :=
  match s.reservation with
  | none => s
  | some t =>
    if t.enabled && !t.live.isEmpty then
      { s with
        reservation := some { t with live := t.live.filter fun r => r.survives t.granule s.draws ea }
        draws := s.draws + 1 }
    else s

/-! ## The store all four instructions make (rules R102, R112) -/

/-- `check(EA)`: checks (2) to (5) of rule R112, in its order; the first that fails is the answer. -/
def State.checkStore (s : State) (ea : Addr) : Option Stop :=
  if s.params.eaTop = .fault ∧ ea = 0xFFFFFFFF#32 then some (.fault (.addressWrap ea s.pc))
  else if ¬ (s.admits ea = true ∧ s.admits (ea + 1#32) = true) then some (.fault (.storeNotAdmitted ea s.pc))
  else if s.isCode ea = true ∨ s.isCode (ea + 1#32) = true then some (.refusal (.storeToCode ea s.pc))
  else if 2 ^ 32 ≤ s.pc.toNat + 4 then some (.fault (.pcWrap s.pc))
  else none

/-- Steps (2) and (3) of rule R102: `ResInvalidate(EA)`, then `MemWrite(EA, 2, v)`. -/
def State.storeHalf (s : State) (ea : Addr) (v : Half) : State :=
  (s.resInvalidate ea).memWrite2 ea v

/-- Rule R102 for the forms without update: all checks first, then steps (2), (3) and (5). -/
def State.store (s : State) (ea : Addr) (v : Half) : Host.Outcome State Fault Refusal :=
  match s.checkStore ea with
  | some e => e.outcome
  | none => .next (s.storeHalf ea v).advancePc

/-- Rule R102 for the update forms: all checks first, then steps (2) to (5); step (4) is `x[RA] <- back`. -/
def State.storeUpdate (s : State) (ea : Addr) (v : Half) (ra : Reg) (back : Dword) :
    Host.Outcome State Fault Refusal :=
  match s.checkStore ea with
  | some e => e.outcome
  | none => .next ((s.storeHalf ea v).setX ra back).advancePc

/-! ## Instruction fetch (rules R23, R56, R84) -/

/-- All four bytes of the word at `pc` are program text. -/
def State.textAt (s : State) (pc : Addr) : Bool :=
  s.isCode pc && s.isCode (pc + 1#32) && s.isCode (pc + 2#32) && s.isCode (pc + 3#32)

/-- What the fetch at an address gives: an instruction, or the reason the step stops (DESIGN CHOICE for the three stops
before decoding, log entry 10). -/
inductive Fetched where
  | instr (i : Instr)
  | stop (e : Stop)
  deriving DecidableEq, Repr

/-- Fetch and decode (rule R56): four bytes of `CODE_REGION`, big-endian, at a multiple of 4; then check (0) of
rule R112. -/
def State.fetch (s : State) (pc : Addr) : Fetched :=
  if pc.toNat % 4 ≠ 0 then .stop (.fault (.pcMisaligned pc))
  else if s.textAt pc = false then .stop (.refusal (.fetchOutsideText pc))
  else
    match s.memRead4 pc with
    | none => .stop (.fault (.textUnwritten pc))
    | some w =>
      match decodeWord s.params.rcIgnored w with
      | .instr i => .instr i
      | .notInScope w => .stop (.refusal (.notInScope w pc))

/-! ## Loading (rules R56, R161) -/

/-- The bytes written one after the other from an address on; past `0xFFFF_FFFF` they go on at address 0 (DESIGN CHOICE,
log entry 26). -/
def State.writeBytes (s : State) (a : Addr) : List Byte → State
  | [] => s
  | b :: rest => (s.writeByte a b).writeBytes (a + 1#32) rest

/-- A program text placed at an address: its bytes in memory, big-endian word by word, and their addresses in
`CODE_REGION` (rules R32, R56; DEDUCED, log entry 8). -/
def State.placeText (s : State) (base : Addr) (words : List Word) : State :=
  let t := s.writeBytes base (words.flatMap bytesOfWord)
  { t with params := { t.params with codeRegion := ⟨base.toNat, 4 * words.length⟩ :: t.params.codeRegion } }

end Sys2Proof.Machine
end

