-- ==== Sys2Proof/Machine/Flags.lean ====
section
/-! DEFINITION. The flags. The family computes none: "None of the four instructions writes or reads any flag,
condition-register field or status-register field" (rule R111), the address addition "sets no carry and no overflow
flag" (rule R25), and there is no record form (rule R81). So this file holds no flag computation, only the view of
CR and XER by which statements say that they stay as they are. -/

namespace Sys2Proof.Machine

/-- The contents of field `fld` of the condition register (rule R24). -/
def State.crField (s : State) (fld : Nat) : Nat := RegFile.get s.cr fld

/-- Every flag the machine has: the condition register and XER (rules R24, R25). -/
def State.flags (s : State) : RegFile × Xer := (s.cr, s.xer)

end Sys2Proof.Machine
end

