-- ==== Sys2Proof/Machine/Operands.lean ====
section
/-! DEFINITION. Every operand form of the family and its width changes (rules R8, R40, R76 to R80, R101, R103,
R108, R115). -/

namespace Sys2Proof.Machine

/-! ## Width changes (rule R8) -/

/-- `trunc_32(v)` is `v[31:0]`. -/
def trunc32 (v : Dword) : Addr := v.extractLsb' 0 32

/-- `trunc_16(v)` is `v[15:0]`. -/
def trunc16 (v : Dword) : Half := v.extractLsb' 0 16

/-- `sext_64(v)` of a 16-bit value: the source's `EXTS(d)` (rule R76). -/
def sext64 (d : Disp) : Dword := d.signExtend 64

/-- `zext_64(v)` of a 32-bit value. -/
def zext64 (ea : Addr) : Dword := ea.setWidth 64

/-! ## Bases (rules R78, R79) -/

/-- `base0(RA)`, the operand form `RA0` of `sth` and `sthx`: the literal 64-bit zero for register number 0. -/
def State.base0 (s : State) (ra : Reg) : Dword := if ra = 0 then 0#64 else s.x ra

/-! ## Effective addresses (rules R40, R101) -/

/-- `EA = trunc_32(base +_64 offset)`. -/
def effectiveAddress (base offset : Dword) : Addr := trunc32 (base + offset)

/-- The effective address of `sth RS, d(RA0)`. -/
def State.eaSth (s : State) (ra : Reg) (d : Disp) : Addr := effectiveAddress (s.base0 ra) (sext64 d)

/-- The effective address of `sthu RS, d(RA)`. -/
def State.eaSthu (s : State) (ra : Reg) (d : Disp) : Addr := effectiveAddress (s.x ra) (sext64 d)

/-- The effective address of `sthux RS, RA, RB`. -/
def State.eaSthux (s : State) (ra rb : Reg) : Addr := effectiveAddress (s.x ra) (s.x rb)

/-- The effective address of `sthx RS, RA0, RB`. -/
def State.eaSthx (s : State) (ra rb : Reg) : Addr := effectiveAddress (s.base0 ra) (s.x rb)

/-! ## The stored value (rule R103) -/

/-- The value stored: the low 16 bits of `x[RS]`, the source's `(RS)[48:63]`. -/
def State.storedHalf (s : State) (rs : Reg) : Half := trunc16 (s.x rs)

end Sys2Proof.Machine
end

