-- ==== Sys2Proof/Machine/StoreHalfword.lean ====
section
/-! DEFINITION. The meanings of the four instructions (rules R104 to R107 of 40_store_halfword.md), each over the
shared operations of Ops.lean and Operands.lean. -/

namespace Sys2Proof.Machine

/-- Check (1) of rule R112: field `RA` = 0 in an update form stops under `INVALID_FORM_POLICY = fault`; under
`snapshot` the form runs with the real `r0` as base and destination (rule R110). -/
def State.invalidFormStops (s : State) (ra : Reg) : Bool := ra == 0 && s.params.invalidForm == .fault

/-- `sth RS, d(RA0)` (rule R104). -/
def execSth (rs ra : Reg) (d : Disp) (s : State) : Host.Outcome State Fault Refusal :=
  s.store (s.eaSth ra d) (s.storedHalf rs)

/-- `sthu RS, d(RA)` (rules R105, R108, R110). -/
def execSthu (rs ra : Reg) (d : Disp) (s : State) : Host.Outcome State Fault Refusal :=
  if s.invalidFormStops ra then .fault (.invalidForm (encode (.sthu rs ra d)) s.pc)
  else s.storeUpdate (s.eaSthu ra d) (s.storedHalf rs) ra (zext64 (s.eaSthu ra d))

/-- `sthux RS, RA, RB` (rules R106, R108, R110). `Rc` has no effect (rule R111). -/
def execSthux (rs ra rb : Reg) (rc : BitVec 1) (s : State) : Host.Outcome State Fault Refusal :=
  if s.invalidFormStops ra then .fault (.invalidForm (encode (.sthux rs ra rb rc)) s.pc)
  else s.storeUpdate (s.eaSthux ra rb) (s.storedHalf rs) ra (zext64 (s.eaSthux ra rb))

/-- `sthx RS, RA0, RB` (rule R107). `Rc` has no effect and is not read (rule R111). -/
def execSthx (rs ra rb : Reg) (s : State) : Host.Outcome State Fault Refusal :=
  s.store (s.eaSthx ra rb) (s.storedHalf rs)

end Sys2Proof.Machine
end

