-- ==== Sys2Proof/Machine/Dispatch.lean ====
section
/-! DEFINITION. One arm per constructor of `Instr`, each a direct call of that instruction's meaning. -/

namespace Sys2Proof.Machine

def exec (i : Instr) (s : State) : Host.Outcome State Fault Refusal :=
  match i with
  | .sth rs ra d => Sys2Proof.Machine.execSth rs ra d s
  | .sthu rs ra d => Sys2Proof.Machine.execSthu rs ra d s
  | .sthux rs ra rb rc => Sys2Proof.Machine.execSthux rs ra rb rc s
  | .sthx rs ra rb _ => Sys2Proof.Machine.execSthx rs ra rb s

end Sys2Proof.Machine
end

