-- ==== Sys2Proof/Machine/Step.lean ====
section
/-! DEFINITION. One step: fetch and decode at `pc`, then the instruction's own meaning, which advances `pc`
(rules R56, R102, R114). -/

namespace Sys2Proof.Machine

/-- One step of the one agent. -/
def step (s : State) : Host.Outcome State Fault Refusal :=
  match s.fetch s.pc with
  | .instr i => exec i s
  | .stop e => e.outcome

/-- The state with the one-word program `w` loaded at `pc`: its bytes there, and their addresses in `CODE_REGION`,
without which nothing is fetched (rule R56; log entry 8). -/
def State.withFetchWord (s : State) (nbits w : Nat) : State :=
  s.placeText s.pc [BitVec.ofNat 32 (w % 2 ^ nbits)]

end Sys2Proof.Machine
end

