-- ==== Sys2Proof/Machine/Assembly.lean ====
section
/-! DEFINITION. The assembler's spelling of an instruction (rules R86, R87; decision D20). It carries no semantics: no
step reads it. -/

namespace Sys2Proof.Machine

/-- `r0` to `r31`: "This spec writes registers as `rN`" (rule R86). -/
def regName (r : Reg) : String := "r" ++ Nat.repr r.val

/-- A displacement "in decimal with a leading `-` when negative" (rule R86). -/
def dispName (d : Disp) : String :=
  if d.toNat < 2 ^ 15 then Nat.repr d.toNat else "-" ++ Nat.repr (2 ^ 16 - d.toNat)

/-- The base of `sth` and `sthx`: "the literal-zero base ... as a bare `0`" (rule R86). -/
def base0Name (ra : Reg) : String := if ra = 0 then "0" else regName ra

/-- The instruction as the spec spells it: the source's four templates (rule R86). -/
def assembly : Instr → String
  | .sth rs ra d => "sth " ++ regName rs ++ ", " ++ dispName d ++ "(" ++ base0Name ra ++ ")"
  | .sthu rs ra d => "sthu " ++ regName rs ++ ", " ++ dispName d ++ "(" ++ regName ra ++ ")"
  | .sthux rs ra rb _ => "sthux " ++ regName rs ++ ", " ++ regName ra ++ ", " ++ regName rb
  | .sthx rs ra rb _ => "sthx " ++ regName rs ++ ", " ++ base0Name ra ++ ", " ++ regName rb

end Sys2Proof.Machine
end

