-- ==== Sys2Proof/Safety.lean ====
section
/-! DEFINITION. What the statements about the machine are said in: the store an instruction asks for, when it
completes, what a completed store leaves, the invariant of the machine, and what a launched program is (rules R161,
R162). No meaning uses a definition of this file. -/

namespace Sys2Proof

/-- The register whose low half word an instruction stores, its field `RS` (rules R21, R77). -/
def Instr.sourceReg : Instr → Reg
  | .sth rs _ _ => rs
  | .sthu rs _ _ => rs
  | .sthux rs _ _ _ => rs
  | .sthx rs _ _ _ => rs

/-- The register an update form writes (rule R21). -/
def Instr.updatedReg : Instr → Option Reg
  | .sth _ _ _ => none
  | .sthu _ ra _ => some ra
  | .sthux _ ra _ _ => some ra
  | .sthx _ _ _ _ => none

end Sys2Proof

namespace Sys2Proof.Machine

/-! ## The store an instruction asks for -/

/-- The effective address of an instruction, by the function its meaning uses (rule R101). -/
def State.storeAddress (s : State) : Instr → Addr
  | .sth _ ra d => s.eaSth ra d
  | .sthu _ ra d => s.eaSthu ra d
  | .sthux _ ra rb _ => s.eaSthux ra rb
  | .sthx _ ra rb _ => s.eaSthx ra rb

/-- The half word an instruction stores (rule R103). -/
def State.storeValue (s : State) (i : Instr) : Half := s.storedHalf i.sourceReg

/-! ## When it completes -/

/-- Check (1) of rule R112 stops the instruction (rule R110). -/
abbrev State.formStops (s : State) (i : Instr) : Prop := i.isInvalidForm = true ∧ s.params.invalidForm = .fault

/-- Checks (2) to (5) of rule R112 all pass for a store at `ea`. -/
abbrev State.storeAllowed (s : State) (ea : Addr) : Prop :=
  ¬ (s.params.eaTop = .fault ∧ ea = 0xFFFFFFFF#32) ∧
  (s.admits ea = true ∧ s.admits (ea + 1#32) = true) ∧
  (s.isCode ea = false ∧ s.isCode (ea + 1#32) = false) ∧
  s.pc.toNat + 4 < 2 ^ 32

/-! ## What a completed store leaves -/

/-- The half word `v` stands at `ea`, more significant byte first, and every other byte reads as before. -/
def HalfStoredAt (s t : State) (ea : Addr) (v : Half) : Prop :=
  t.readByte ea = some (v.extractLsb' 8 8) ∧ t.readByte (ea + 1#32) = some (v.extractLsb' 0 8) ∧
  ∀ a, a ≠ ea → a ≠ ea + 1#32 → t.readByte a = s.readByte a

/-- The condition register, XER, the floating-point and vector registers and the parameters are as before. -/
def OtherStateSame (s t : State) : Prop :=
  t.cr = s.cr ∧ t.xer = s.xer ∧ t.fpr = s.fpr ∧ t.vr = s.vr ∧ t.params = s.params

/-- The outcome with `f` applied to its next state; a stop stays the same stop. By it a statement says that a part
of the state is neither read nor written: changing that part first, or last, comes to the same. -/
def mapNext (f : State → State) : Host.Outcome State Fault Refusal → Host.Outcome State Fault Refusal
  | .next t => .next (f t)
  | .fault e => .fault e
  | .refused e => .refused e

/-! ## The invariant -/

/-- Memory keeps its canonical form, `pc` is a multiple of 4 (rule R23), and `RES_GRANULE` is a positive number. -/
abbrev State.inv (s : State) : Prop :=
  Memory.wf s.mem = true ∧ s.pc.toNat % 4 = 0 ∧ (s.reservation.all fun t => decide (0 < t.granule)) = true

/-! ## A launched program (rules R161, R162) -/

/-- Rule R161 (a), (b), (c): a program text of `n` words at `base`, all of it in scope, outside `MEM_ADMIT`, and low
enough that no step of it raises `PcWrap`. -/
def State.programLoaded (s : State) (base n : Nat) : Prop :=
  base % 4 = 0 ∧ base + 4 * n ≤ 2 ^ 32 - 4 ∧ s.params.codeRegion = [⟨base, 4 * n⟩] ∧
  (∀ k < n, ∃ i, s.fetch (BitVec.ofNat 32 (base + 4 * k)) = .instr i) ∧
  (∀ a : Addr, s.admits a = true → s.isCode a = false)

/-- Rule R162: a run of a program of `n` words at `base` has ended normally. -/
abbrev State.ended (s : State) (base n : Nat) : Prop := s.pc.toNat = base + 4 * n

end Sys2Proof.Machine
end

