-- ==== Sys2Proof/Certificates/Slice0/Obligations.lean ====
section
/-! DEFINITION. The statements for the provers. Each docstring names the rule of the spec it formalises. -/

open Sys2Proof Sys2Proof.Machine

/-! ## Encoding (30_encoding.md) -/

/-- 95_test_vectors.md, vectors E1 to E13: words written out from rule R74's patterns, and what they decode to. -/
def Obligations.SampleWordsDecode : Prop :=
  decodeWord false 0xB0640008#32 = .instr (.sth 3 4 8#16) ∧
  decodeWord false 0xB4640008#32 = .instr (.sthu 3 4 8#16) ∧
  decodeWord false 0x7C642B2E#32 = .instr (.sthx 3 4 5 0#1) ∧
  decodeWord false 0x7C642B6E#32 = .instr (.sthux 3 4 5 0#1) ∧
  decodeWord false 0xB064FFFE#32 = .instr (.sth 3 4 (-2#16)) ∧
  decodeWord false 0xB0648000#32 = .instr (.sth 3 4 0x8000#16) ∧
  decodeWord false 0xB3FFFFFF#32 = .instr (.sth 31 31 (-1#16)) ∧
  decodeWord false 0xB7FFFFFF#32 = .instr (.sthu 31 31 (-1#16)) ∧
  decodeWord false 0x7FFFFB2E#32 = .instr (.sthx 31 31 31 0#1) ∧
  decodeWord false 0x7FFFFB6E#32 = .instr (.sthux 31 31 31 0#1) ∧
  decodeWord false 0xB0000000#32 = .instr (.sth 0 0 0#16) ∧
  decodeWord false 0x7C00032E#32 = .instr (.sthx 0 0 0 0#1)

/-- 95_test_vectors.md, vectors X1 to X5: words beside the four patterns, and the two that `RC_IGNORED` admits. -/
def Obligations.SampleWordsOutsideScope : Prop :=
  decodeWord false 0x7C642B2F#32 = .notInScope 0x7C642B2F#32 ∧
  decodeWord false 0x7C642B6F#32 = .notInScope 0x7C642B6F#32 ∧
  decodeWord true 0x7C642B2F#32 = .instr (.sthx 3 4 5 1#1) ∧
  decodeWord true 0x7C642B6F#32 = .instr (.sthux 3 4 5 1#1) ∧
  decodeWord false 0x7C642B2C#32 = .notInScope 0x7C642B2C#32 ∧
  decodeWord false 0xAC640008#32 = .notInScope 0xAC640008#32 ∧
  decodeWord false 0xB8640008#32 = .notInScope 0xB8640008#32

/-- Rules R75 and R85: decoding the word, or the bytes, of any well-formed instruction gives it back, with every
operand at every value, under either value of `RC_IGNORED`. For an X form with `Rc` = 1, which has a word under
`RC_IGNORED` only (the spec's decision D2), this rests on the model's own choice to carry `Rc` as an operand (log entry
13): rule R75 never sets that bit. -/
def Obligations.DecodeEncodeRoundTrip : Prop :=
  ∀ (rcIgnored : Bool) (i : Instr) (rest : List Byte), i.wellFormed rcIgnored = true →
    decodeWord rcIgnored (encode i) = .instr i ∧
    decodeBytes rcIgnored (bytesOfWord (encode i) ++ rest) = .instr i rest

/-- Rules R75 and R85, the other direction: a word that decodes is the encoding of what it decodes to, and that is
well-formed. So no two words decode to one instruction, and no bit of a word is dropped. Under `RC_IGNORED = true` that
is not rules R75 and R85 (rule R75 never sets bit 31, and the alternative of the spec's decision D2 ignores it): there
it is the MODEL'S CHOICE, which carries `Rc` as an operand of the X forms (log entry 13). -/
def Obligations.EncodeInvertsDecode : Prop :=
  ∀ (rcIgnored : Bool) (w : Word) (i : Instr), decodeWord rcIgnored w = .instr i →
    encode i = w ∧ i.wellFormed rcIgnored = true

/-- Rule R74: "a word `w` is the instruction when `w AND mask = match`", row by row, and its pattern says where each
operand field stands. The X rows' two masks are the spec's own decision D2 (`RC_IGNORED`). -/
def Obligations.DecodeFollowsMatchAndMask : Prop :=
  (∀ (b : Bool) (w : Word), w &&& 0xFC000000#32 = 0xB0000000#32 ↔
    decodeWord b w = .instr (.sth (w.extractLsb' 21 5).toFin (w.extractLsb' 16 5).toFin (w.extractLsb' 0 16))) ∧
  (∀ (b : Bool) (w : Word), w &&& 0xFC000000#32 = 0xB4000000#32 ↔
    decodeWord b w = .instr (.sthu (w.extractLsb' 21 5).toFin (w.extractLsb' 16 5).toFin (w.extractLsb' 0 16))) ∧
  (∀ w : Word, w &&& 0xFC0007FF#32 = 0x7C00036E#32 ↔ decodeWord false w =
    .instr (.sthux (w.extractLsb' 21 5).toFin (w.extractLsb' 16 5).toFin (w.extractLsb' 11 5).toFin 0#1)) ∧
  (∀ w : Word, w &&& 0xFC0007FF#32 = 0x7C00032E#32 ↔ decodeWord false w =
    .instr (.sthx (w.extractLsb' 21 5).toFin (w.extractLsb' 16 5).toFin (w.extractLsb' 11 5).toFin 0#1)) ∧
  (∀ w : Word, w &&& 0xFC0007FE#32 = 0x7C00036E#32 ↔ decodeWord true w =
    .instr (.sthux (w.extractLsb' 21 5).toFin (w.extractLsb' 16 5).toFin (w.extractLsb' 11 5).toFin
      (w.extractLsb' 0 1))) ∧
  (∀ w : Word, w &&& 0xFC0007FE#32 = 0x7C00032E#32 ↔ decodeWord true w =
    .instr (.sthx (w.extractLsb' 21 5).toFin (w.extractLsb' 16 5).toFin (w.extractLsb' 11 5).toFin
      (w.extractLsb' 0 1)))

/-- Rule R85: "The four patterns are disjoint": a word that matches the rows of two instructions matches one row. -/
def Obligations.NoWordMatchesTwoRows : Prop :=
  ∀ (b : Bool) (w : Word) (i j : Instr),
    w &&& i.mask b = i.opcodeWord → w &&& j.mask b = j.opcodeWord → i.opcodeWord = j.opcodeWord

/-- The spec's own decision D3 (where rule R84 puts it): the decoder returns `NotInScope(word)` for a word that matches none of the four rows, and a step that
fetches it ends in that refusal, which records the word and `pc` (decision D13). -/
def Obligations.WordsOutsideRowsAreRefused : Prop :=
  ∀ (s : State) (w : Word),
    w &&& 0xFC000000#32 ≠ 0xB0000000#32 → w &&& 0xFC000000#32 ≠ 0xB4000000#32 →
    w &&& xMask s.params.rcIgnored ≠ 0x7C00036E#32 → w &&& xMask s.params.rcIgnored ≠ 0x7C00032E#32 →
    decodeWord s.params.rcIgnored w = .notInScope w ∧
    (s.pc.toNat % 4 = 0 → s.textAt s.pc = true → s.memRead4 s.pc = some w →
      step s = .refused (.notInScope w s.pc))

/-- The spec's own decision D2 (where rule R81 puts it): a word with the opcode fields of `sthx` or `sthux` and bit 31 (source numbering) = 1 is refused by
default; with `RC_IGNORED` it is decoded, and with bit 31 = 0 it is decoded either way. -/
def Obligations.RecordBitIsRefusedUnlessIgnored : Prop :=
  ∀ w : Word, w.extractLsb' 26 6 = 31#6 → (w.extractLsb' 1 10 = 407#10 ∨ w.extractLsb' 1 10 = 439#10) →
    (w.extractLsb' 0 1 = 1#1 → decodeWord false w = .notInScope w) ∧
    (∃ i, decodeWord true w = .instr i) ∧
    (w.extractLsb' 0 1 = 0#1 → ∃ i, decodeWord false w = .instr i)

/-- Rule R82: the words of the invalid forms, which the decoder still recognises as `sthu` and `sthux`, and that no
other word decodes to an invalid form. -/
def Obligations.InvalidFormWords : Prop :=
  (∀ w, w &&& 0xFC1F0000#32 = 0xB4000000#32 ↔ ∃ rs d, decodeWord false w = .instr (.sthu rs 0 d)) ∧
  (∀ w, w &&& 0xFC1F07FF#32 = 0x7C00036E#32 ↔ ∃ rs rb, decodeWord false w = .instr (.sthux rs 0 rb 0#1)) ∧
  (∀ w i, decodeWord false w = .instr i → i.isInvalidForm = true →
    w &&& 0xFC1F0000#32 = 0xB4000000#32 ∨ w &&& 0xFC1F07FF#32 = 0x7C00036E#32)

/-- Rules R72 and R73: the fields of every encoded word stand at the tables' places. That `Rc` is a field of the encoded
word, and may be 1, is the model's choice (log entry 13; the spec's decision D2). -/
def Obligations.EncodedFieldsStandAtTheirPlaces : Prop :=
  (∀ (rs ra : Reg) (d : Disp),
    let w := encode (.sth rs ra d)
    let u := encode (.sthu rs ra d)
    w.extractLsb' 26 6 = 44#6 ∧ (w.extractLsb' 21 5).toNat = rs.val ∧ (w.extractLsb' 16 5).toNat = ra.val ∧
    w.extractLsb' 0 16 = d ∧
    u.extractLsb' 26 6 = 45#6 ∧ (u.extractLsb' 21 5).toNat = rs.val ∧ (u.extractLsb' 16 5).toNat = ra.val ∧
    u.extractLsb' 0 16 = d) ∧
  (∀ (rs ra rb : Reg) (rc : BitVec 1),
    let w := encode (.sthx rs ra rb rc)
    let u := encode (.sthux rs ra rb rc)
    w.extractLsb' 26 6 = 31#6 ∧ (w.extractLsb' 21 5).toNat = rs.val ∧ (w.extractLsb' 16 5).toNat = ra.val ∧
    (w.extractLsb' 11 5).toNat = rb.val ∧ w.extractLsb' 1 10 = 407#10 ∧ w.extractLsb' 0 1 = rc ∧
    u.extractLsb' 26 6 = 31#6 ∧ (u.extractLsb' 21 5).toNat = rs.val ∧ (u.extractLsb' 16 5).toNat = ra.val ∧
    (u.extractLsb' 11 5).toNat = rb.val ∧ u.extractLsb' 1 10 = 439#10 ∧ u.extractLsb' 0 1 = rc)

/-- Rule R86 with the spec's own decision D20: the rule's four spelled examples, each the spelling of what the word of
vectors E1, V3, V26 and E4 decodes to. -/
def Obligations.SampleWordsAreSpelledAsTheSpecSpellsThem : Prop :=
  (∃ i, decodeWord false 0xB0640008#32 = .instr i ∧ assembly i = "sth r3, 8(r4)") ∧
  (∃ i, decodeWord false 0xB0A00100#32 = .instr i ∧ assembly i = "sth r5, 256(0)") ∧
  (∃ i, decodeWord false 0x7C602B2E#32 = .instr i ∧ assembly i = "sthx r3, 0, r5") ∧
  (∃ i, decodeWord false 0x7C642B6E#32 = .instr i ∧ assembly i = "sthux r3, r4, r5")

/-! ## Registers and operands -/

/-- Rule R20: every register, `r0` too, "holds whatever was last written to it", and a write changes no other. -/
def Obligations.RegistersHoldWhatWasLastWritten : Prop :=
  ∀ (s : State) (r q : Reg) (v : Dword), (s.setX r v).x r = v ∧ (q ≠ r → (s.setX r v).x q = s.x q)

/-- Rule R113 (b), (c): the sign extension's values, and that the address may be computed in 32 bits throughout. -/
def Obligations.AddressArithmeticIsModulo32Bits : Prop :=
  (∀ base offset : Dword, effectiveAddress base offset = base.setWidth 32 + offset.setWidth 32) ∧
  sext64 0x7FFF#16 = 32767#64 ∧ sext64 0x8000#16 = 0xFFFFFFFFFFFF8000#64 ∧
  sext64 0xFFFF#16 = 0xFFFFFFFFFFFFFFFF#64

/-- Rule R40: "two register values that agree in their low 32 bits address the same byte": with every register
replaced by one that agrees with it in the low 32 bits, an instruction completes again and leaves the same memory,
the same `pc` and the same reservations. -/
def Obligations.HighRegisterBitsDoNotReachMemory : Prop :=
  ∀ (i : Instr) (s t : State) (g : Vector Dword 32),
    (∀ r : Reg, (g[r]).setWidth 32 = (s.x r).setWidth 32) → exec i s = .next t →
    ∃ u, exec i { s with gpr := g } = .next u ∧ u.mem = t.mem ∧ u.pc = t.pc ∧ u.reservation = t.reservation

/-- Rules R40, R101: the effective address of each instruction: the low 32 bits of the 64-bit sum of its base and its
offset. -/
def Obligations.EffectiveAddressesFollowTheTable : Prop :=
  (∀ (s : State) (rs ra : Reg) (d : Disp), s.storeAddress (.sth rs ra d) =
    ((if ra = 0 then 0#64 else s.x ra) + d.signExtend 64).setWidth 32) ∧
  (∀ (s : State) (rs ra : Reg) (d : Disp), s.storeAddress (.sthu rs ra d) =
    (s.x ra + d.signExtend 64).setWidth 32) ∧
  (∀ (s : State) (rs ra rb : Reg) (rc : BitVec 1), s.storeAddress (.sthux rs ra rb rc) =
    (s.x ra + s.x rb).setWidth 32) ∧
  (∀ (s : State) (rs ra rb : Reg) (rc : BitVec 1), s.storeAddress (.sthx rs ra rb rc) =
    ((if ra = 0 then 0#64 else s.x ra) + s.x rb).setWidth 32)

/-- Rule R103: the two bytes are the low half word of `x[RS]`, and "bits 63 to 16 of `x[RS]` have no effect on any
state": with `RS` replaced by a value of the same low half word, where `RS` is not also read for the address, an
instruction comes to the same but for that register itself. -/
def Obligations.OnlyTheLowHalfOfTheSourceMatters : Prop :=
  (∀ (i : Instr) (s t : State) (rs : Reg), i.sourceReg = rs → exec i s = .next t →
    t.readByte (s.storeAddress i) = some ((s.x rs).extractLsb' 8 8) ∧
    t.readByte (s.storeAddress i + 1#32) = some ((s.x rs).extractLsb' 0 8)) ∧
  (∀ (s : State) (rs ra : Reg) (d : Disp) (v : Dword), v.setWidth 16 = (s.x rs).setWidth 16 → (ra = 0 ∨ rs ≠ ra) →
    exec (.sth rs ra d) (s.setX rs v) = mapNext (fun t => t.setX rs v) (exec (.sth rs ra d) s)) ∧
  (∀ (s : State) (rs ra : Reg) (d : Disp) (v : Dword), v.setWidth 16 = (s.x rs).setWidth 16 → rs ≠ ra →
    exec (.sthu rs ra d) (s.setX rs v) = mapNext (fun t => t.setX rs v) (exec (.sthu rs ra d) s)) ∧
  (∀ (s : State) (rs ra rb : Reg) (rc : BitVec 1) (v : Dword), v.setWidth 16 = (s.x rs).setWidth 16 →
    rs ≠ ra → rs ≠ rb →
    exec (.sthux rs ra rb rc) (s.setX rs v) = mapNext (fun t => t.setX rs v) (exec (.sthux rs ra rb rc) s)) ∧
  (∀ (s : State) (rs ra rb : Reg) (rc : BitVec 1) (v : Dword), v.setWidth 16 = (s.x rs).setWidth 16 →
    (ra = 0 ∨ rs ≠ ra) → rs ≠ rb →
    exec (.sthx rs ra rb rc) (s.setX rs v) = mapNext (fun t => t.setX rs v) (exec (.sthx rs ra rb rc) s))

/-- Rule R78: the `RA0` operand is the literal zero for register number 0 and the register otherwise; "With `RA = 0`
no register is read for the base, and whatever `r0` holds does not matter". -/
def Obligations.BaseZeroFormIgnoresR0 : Prop :=
  (∀ s : State, s.base0 0 = 0#64 ∧ ∀ ra : Reg, ra ≠ 0 → s.base0 ra = s.x ra) ∧
  (∀ (s : State) (v : Dword) (rs : Reg) (d : Disp), rs ≠ 0 →
    exec (.sth rs 0 d) (s.setX 0 v) = mapNext (fun t => t.setX 0 v) (exec (.sth rs 0 d) s)) ∧
  (∀ (s : State) (v : Dword) (rs rb : Reg) (rc : BitVec 1), rs ≠ 0 → rb ≠ 0 →
    exec (.sthx rs 0 rb rc) (s.setX 0 v) = mapNext (fun t => t.setX 0 v) (exec (.sthx rs 0 rb rc) s))

/-! ## What each instruction does (40_store_halfword.md) -/

/-- Rule R104, with R101, R103, R41: `sth` completes wherever its store is allowed, for every `RS`, `RA`, `d`. -/
def Obligations.SthStoresAndCompletes : Prop :=
  ∀ (rs ra : Reg) (d : Disp) (s : State), s.storeAllowed (s.eaSth ra d) →
    ∃ t, exec (.sth rs ra d) s = .next t ∧
      s.eaSth ra d = ((if ra = 0 then 0#64 else s.x ra) + d.signExtend 64).setWidth 32 ∧
      HalfStoredAt s t (s.eaSth ra d) ((s.x rs).setWidth 16) ∧
      t.gpr = s.gpr ∧ t.pc.toNat = s.pc.toNat + 4 ∧ OtherStateSame s t ∧
      t.reservation = (s.resInvalidate (s.eaSth ra d)).reservation

/-- Rule R105, with R101, R103, R108: `sthu` completes wherever its store is allowed and its form is not stopped, and
writes the zero-extended effective address to `RA`; the half word stored is the OLD `x[RS]`, also when `RS = RA`. -/
def Obligations.SthuStoresUpdatesAndCompletes : Prop :=
  ∀ (rs ra : Reg) (d : Disp) (s : State), (ra ≠ 0 ∨ s.params.invalidForm = .snapshot) →
    s.storeAllowed (s.eaSthu ra d) →
    ∃ t, exec (.sthu rs ra d) s = .next t ∧
      s.eaSthu ra d = (s.x ra + d.signExtend 64).setWidth 32 ∧
      HalfStoredAt s t (s.eaSthu ra d) ((s.x rs).setWidth 16) ∧
      t.x ra = (s.eaSthu ra d).setWidth 64 ∧ (∀ q, q ≠ ra → t.x q = s.x q) ∧
      t.pc.toNat = s.pc.toNat + 4 ∧ OtherStateSame s t ∧
      t.reservation = (s.resInvalidate (s.eaSthu ra d)).reservation

/-- Rule R106, with R101, R103, R108: `sthux`, likewise; `RA = RB`, `RS = RA` and `RS = RB` included, and `RB = 0` is
the real `r0` (rule R80). -/
def Obligations.SthuxStoresUpdatesAndCompletes : Prop :=
  ∀ (rs ra rb : Reg) (rc : BitVec 1) (s : State), (ra ≠ 0 ∨ s.params.invalidForm = .snapshot) →
    s.storeAllowed (s.eaSthux ra rb) →
    ∃ t, exec (.sthux rs ra rb rc) s = .next t ∧
      s.eaSthux ra rb = (s.x ra + s.x rb).setWidth 32 ∧
      HalfStoredAt s t (s.eaSthux ra rb) ((s.x rs).setWidth 16) ∧
      t.x ra = (s.eaSthux ra rb).setWidth 64 ∧ (∀ q, q ≠ ra → t.x q = s.x q) ∧
      t.pc.toNat = s.pc.toNat + 4 ∧ OtherStateSame s t ∧
      t.reservation = (s.resInvalidate (s.eaSthux ra rb)).reservation

/-- Rule R107, with R101, R103: `sthx` completes wherever its store is allowed, for every `RS`, `RA`, `RB`; `RB = 0` is
the real `r0` (rule R80). -/
def Obligations.SthxStoresAndCompletes : Prop :=
  ∀ (rs ra rb : Reg) (rc : BitVec 1) (s : State), s.storeAllowed (s.eaSthx ra rb) →
    ∃ t, exec (.sthx rs ra rb rc) s = .next t ∧
      s.eaSthx ra rb = ((if ra = 0 then 0#64 else s.x ra) + s.x rb).setWidth 32 ∧
      HalfStoredAt s t (s.eaSthx ra rb) ((s.x rs).setWidth 16) ∧
      t.gpr = s.gpr ∧ t.pc.toNat = s.pc.toNat + 4 ∧ OtherStateSame s t ∧
      t.reservation = (s.resInvalidate (s.eaSthx ra rb)).reservation

/-- Rule R33: what a completed instruction, any of the four, leaves alone: every byte but the two at `EA` and `EA + 1`,
every register but the one an update form writes, CR, XER, the FPRs, the VRs, and the parameters. -/
def Obligations.CompletedInstructionFrame : Prop :=
  ∀ (i : Instr) (s t : State), exec i s = .next t →
    (∀ a, a ≠ s.storeAddress i → a ≠ s.storeAddress i + 1#32 → t.readByte a = s.readByte a) ∧
    (∀ q, i.updatedReg ≠ some q → t.x q = s.x q) ∧
    t.cr = s.cr ∧ t.xer = s.xer ∧ t.fpr = s.fpr ∧ t.vr = s.vr ∧ t.params = s.params ∧
    (s.reservation = none → t.reservation = none)

/-- Rule R111: no instruction writes CR or XER, and none reads them (any other contents give the same outcome). The third
clause, that the default decoder gives no record form, is the spec's own decision D2 (log entry 13), since the source
does not say what bit 31 = 1 does. -/
def Obligations.FlagsAreNeitherReadNorWritten : Prop :=
  (∀ (i : Instr) (s t : State), exec i s = .next t → t.flags = s.flags) ∧
  (∀ (i : Instr) (s : State) (c : RegFile) (x : Xer),
    exec i { s with cr := c, xer := x } = mapNext (fun t => { t with cr := c, xer := x }) (exec i s)) ∧
  (∀ (w : Word) (rs ra rb : Reg) (rc : BitVec 1),
    decodeWord false w = .instr (.sthx rs ra rb rc) ∨ decodeWord false w = .instr (.sthux rs ra rb rc) → rc = 0#1)

/-- Rule R27: none of the four reads or writes a floating-point or a vector register. -/
def Obligations.OtherRegisterFilesAreNeitherReadNorWritten : Prop :=
  (∀ (i : Instr) (s t : State), exec i s = .next t → t.fpr = s.fpr ∧ t.vr = s.vr) ∧
  (∀ (i : Instr) (s : State) (f v : RegFile),
    exec i { s with fpr := f, vr := v } = mapNext (fun t => { t with fpr := f, vr := v }) (exec i s))

/-- Rule R114: no instruction is a branch: each sets `pc` to `pc + 4`, and "the next instruction executed is the word at
the new `pc`". That the advance is exact, without wrap, with no premise on `pc`, rests on the check `PcWrap`, the spec's
own decision D11 (log entry 11). -/
def Obligations.EveryInstructionGoesOnToTheNextWord : Prop :=
  ∀ (i : Instr) (s t : State), exec i s = .next t →
    t.pc = s.pc + 4#32 ∧ t.pc.toNat = s.pc.toNat + 4 ∧
    step t = (match t.fetch (s.pc + 4#32) with
      | .instr j => exec j t
      | .stop e => e.outcome)

/-- The spec's own decision D11 (where rule R23 puts it): `pc` is a multiple of 4 at every fetch of a step that
completes, the advance of such a step is exact, and where `pc + 4` is not below `2^32` an instruction whose earlier
checks pass raises `PcWrap`. -/
def Obligations.PcIsAlignedAtFetchAndMayNotWrap : Prop :=
  (∀ s t : State, step s = .next t → s.pc.toNat % 4 = 0 ∧ t.pc.toNat = s.pc.toNat + 4) ∧
  (∀ (i : Instr) (s : State), 2 ^ 32 ≤ s.pc.toNat + 4 → ¬ s.formStops i →
    s.storeAddress i ≠ 0xFFFFFFFF#32 →
    s.admits (s.storeAddress i) = true → s.admits (s.storeAddress i + 1#32) = true →
    s.isCode (s.storeAddress i) = false → s.isCode (s.storeAddress i + 1#32) = false →
    exec i s = .fault (.pcWrap s.pc))

/-- The spec's own decisions D13 and D14 (where rule R112 puts them): the checks and their order, for all four instructions: the first that fails ends the step with its
outcome, and where all pass the instruction completes. -/
def Obligations.ChecksAreMadeInOrder : Prop :=
  (∀ (s : State) (w : Word), s.pc.toNat % 4 = 0 → s.textAt s.pc = true → s.memRead4 s.pc = some w →
    decodeWord s.params.rcIgnored w = .notInScope w → step s = .refused (.notInScope w s.pc)) ∧
  (∀ (i : Instr) (s : State),
    let ea := s.storeAddress i
    let wraps := s.params.eaTop = .fault ∧ ea = 0xFFFFFFFF#32
    let admitted := s.admits ea = true ∧ s.admits (ea + 1#32) = true
    let inCode := s.isCode ea = true ∨ s.isCode (ea + 1#32) = true
    let pcWraps := 2 ^ 32 ≤ s.pc.toNat + 4
    (s.formStops i → exec i s = .fault (.invalidForm (encode i) s.pc)) ∧
    (¬ s.formStops i → wraps → exec i s = .fault (.addressWrap ea s.pc)) ∧
    (¬ s.formStops i → ¬ wraps → ¬ admitted → exec i s = .fault (.storeNotAdmitted ea s.pc)) ∧
    (¬ s.formStops i → ¬ wraps → admitted → inCode → exec i s = .refused (.storeToCode ea s.pc)) ∧
    (¬ s.formStops i → ¬ wraps → admitted → ¬ inCode → pcWraps → exec i s = .fault (.pcWrap s.pc)) ∧
    (¬ s.formStops i → ¬ wraps → admitted → ¬ inCode → ¬ pcWraps → ∃ t, exec i s = .next t))

/-- The spec's own decision D1 (where rule R110 puts it): field `RA` = 0 in `sthu` and `sthux`, under both policies: the outcome `InvalidForm`, or the real `r0`
as base and as destination. -/
def Obligations.InvalidFormFollowsThePolicy : Prop :=
  (∀ (s : State) (rs rb : Reg) (d : Disp) (rc : BitVec 1), s.params.invalidForm = .fault →
    exec (.sthu rs 0 d) s = .fault (.invalidForm (encode (.sthu rs 0 d)) s.pc) ∧
    exec (.sthux rs 0 rb rc) s = .fault (.invalidForm (encode (.sthux rs 0 rb rc)) s.pc)) ∧
  (∀ (s : State) (rs : Reg) (d : Disp), s.params.invalidForm = .snapshot → s.storeAllowed (s.eaSthu 0 d) →
    ∃ t, exec (.sthu rs 0 d) s = .next t ∧ s.eaSthu 0 d = (s.x 0 + d.signExtend 64).setWidth 32 ∧
      HalfStoredAt s t (s.eaSthu 0 d) ((s.x rs).setWidth 16) ∧ t.x 0 = (s.eaSthu 0 d).setWidth 64) ∧
  (∀ (s : State) (rs rb : Reg) (rc : BitVec 1), s.params.invalidForm = .snapshot → s.storeAllowed (s.eaSthux 0 rb) →
    ∃ t, exec (.sthux rs 0 rb rc) s = .next t ∧ s.eaSthux 0 rb = (s.x 0 + s.x rb).setWidth 32 ∧
      HalfStoredAt s t (s.eaSthux 0 rb) ((s.x rs).setWidth 16) ∧ t.x 0 = (s.eaSthux 0 rb).setWidth 64)

/-- The spec's own decision D4 (where rule R46 puts it): a store at `EA = 0xFFFF_FFFF`, under both policies: the outcome `AddressWrap`, or the second byte at
address 0. -/
def Obligations.StoreAtTheTopFollowsThePolicy : Prop :=
  ∀ (i : Instr) (s : State), s.storeAddress i = 0xFFFFFFFF#32 → ¬ s.formStops i →
    (s.params.eaTop = .fault → exec i s = .fault (.addressWrap 0xFFFFFFFF#32 s.pc)) ∧
    (s.params.eaTop = .wrap → s.storeAllowed 0xFFFFFFFF#32 →
      ∃ t, exec i s = .next t ∧ t.readByte 0xFFFFFFFF#32 = some ((s.storeValue i).extractLsb' 8 8) ∧
        t.readByte 0#32 = some ((s.storeValue i).extractLsb' 0 8))

/-- Rule R108: an update form writes the 32-bit effective address zero-extended to 64 bits, not the 64-bit sum; with
the rule's two examples. -/
def Obligations.UpdateWritesTheZeroExtendedAddress : Prop :=
  (∀ (i : Instr) (s t : State) (ra : Reg), i.updatedReg = some ra → exec i s = .next t →
    (t.x ra).extractLsb' 32 32 = 0#32 ∧ (t.x ra).extractLsb' 0 32 = s.storeAddress i) ∧
  (∀ (rs : Reg) (s t : State), s.x 4 = 0xFFFFFFFF00004000#64 → exec (.sthu rs 4 0#16) s = .next t →
    t.x 4 = 0x0000000000004000#64) ∧
  (∀ (rs : Reg) (s t : State), s.x 4 = 0x2#64 → exec (.sthu rs 4 (-4#16)) s = .next t →
    t.x 4 = 0x00000000FFFFFFFE#64)

/-- Rule R45: no alignment requirement. Whatever the address, odd or even, an instruction whose form is not stopped and
whose store is allowed completes, and the two bytes are written at `EA` and `EA + 1`. -/
def Obligations.StoresNeedNoAlignment : Prop :=
  ∀ (i : Instr) (s : State), ¬ s.formStops i → s.storeAllowed (s.storeAddress i) →
    ∃ t, exec i s = .next t ∧ HalfStoredAt s t (s.storeAddress i) (s.storeValue i)

/-! ## The reservation table (rule R28) -/

/-- Rule R28 with its decision D15: absent, disabled or empty, the table is left as it is; else every live reservation
whose granule holds `EA` is ended, and every one whose granule holds neither `EA` nor `EA + 1` stays. Of one whose
granule holds `EA + 1` alone nothing is said: that is the free draw. That the granules are the aligned blocks, so that
the granule of `a` is numbered `a.toNat / tab.granule`, is the MODEL'S CHOICE (DEDUCED, log entry 20): neither rule R28
nor decision D15 says it. -/
def Obligations.StoresEndTheReservationsTheyCover : Prop :=
  ∀ (i : Instr) (s t : State), exec i s = .next t →
    (s.reservation = none → t.reservation = none) ∧
    (∀ tab, s.reservation = some tab → tab.enabled = false ∨ tab.live = [] → t.reservation = some tab) ∧
    (∀ tab, s.reservation = some tab → tab.enabled = true →
      let ea := s.storeAddress i
      let granule := fun a : Addr => a.toNat / tab.granule
      ∃ left, t.reservation = some { tab with live := left } ∧ left.Sublist tab.live ∧
        (∀ r ∈ left, granule r.address ≠ granule ea) ∧
        (∀ r ∈ tab.live, granule r.address ≠ granule ea → granule r.address ≠ granule (ea + 1#32) → r ∈ left))

/-- Rules R28 and R54: no run makes a reservation, or enables, disables or changes the table otherwise. -/
def Obligations.RunsOnlyEndReservations : Prop :=
  ∀ (k : Nat) (s t : State), Host.Core.run Sys2Proof.core k s = .next t →
    (s.reservation = none → t.reservation = none) ∧
    (∀ tab, s.reservation = some tab →
      ∃ left, t.reservation = some { tab with live := left } ∧ left.Sublist tab.live)

/-! ## Memory (20_memory.md) -/

/-- Rule R43, which the spec derives from rules R41 and R44: what accesses of other widths and places see after the two
assignments of `MemWrite(a, 2, v)`. Where the half word or a read crosses `0xFFFF_FFFF`, going on at address 0 is, for
the reads, the MODEL'S CHOICE (log entry 26), and for the store's second byte `EA_TOP_POLICY = wrap` of the spec's
decision D4 (log entry 15). -/
def Obligations.MixedWidthReadsSeeTheStoredHalf : Prop :=
  ∀ (s : State) (a : Addr) (v : Half),
    HalfStoredAt s (s.memWrite2 a v) a v ∧
    (s.memWrite2 a v).memRead2 a = some v ∧
    (∀ b2 b3 : Byte, s.readByte (a + 2#32) = some b2 → s.readByte (a + 3#32) = some b3 →
      (s.memWrite2 a v).memRead4 a = some (v ++ b2 ++ b3)) ∧
    (∀ b0 b1 : Byte, s.readByte (a - 2#32) = some b0 → s.readByte (a - 1#32) = some b1 →
      (s.memWrite2 a v).memRead4 (a - 2#32) = some (b0 ++ b1 ++ v)) ∧
    (∀ b2 : Byte, s.readByte (a + 2#32) = some b2 →
      (s.memWrite2 a v).memRead2 (a + 1#32) = some (v.extractLsb' 0 8 ++ b2))

/-- The spec's own decision D5 (where rule R49 puts it): "writing the same value twice equals writing it once": a form without update, run twice, leaves memory
as after the first time. -/
def Obligations.RepeatedStoreChangesNothingMore : Prop :=
  ∀ (i : Instr) (s t u : State), i.updatedReg = none → exec i s = .next t → exec i t = .next u →
    ∀ a, u.readByte a = t.readByte a

/-- The spec's own decision D8 (where rule R52 puts it): a store is visible to every later instruction, and "two stores to the same byte leave the later one's
value": every byte after two instructions. -/
def Obligations.LaterStoreOverwritesEarlier : Prop :=
  ∀ (i j : Instr) (s t u : State), exec i s = .next t → exec j t = .next u →
    ∀ a, u.readByte a =
      if a = t.storeAddress j then some ((t.storeValue j).extractLsb' 8 8)
      else if a = t.storeAddress j + 1#32 then some ((t.storeValue j).extractLsb' 0 8)
      else if a = s.storeAddress i then some ((s.storeValue i).extractLsb' 8 8)
      else if a = s.storeAddress i + 1#32 then some ((s.storeValue i).extractLsb' 0 8)
      else s.readByte a

/-- Rule R163: the base register an update form writes is available to the very next instruction: a walk with `sthu`
addresses from the address before, modulo `2^32`. -/
def Obligations.UpdatedBaseFeedsTheNextInstruction : Prop :=
  ∀ (rs ra : Reg) (d d' : Disp) (s t : State), exec (.sthu rs ra d) s = .next t →
    t.eaSthu ra d' = s.eaSthu ra d + d'.signExtend 32 ∧
    (ra ≠ 0 → t.eaSth ra d' = s.eaSthu ra d + d'.signExtend 32)

/-! ## Steps and runs -/

/-- The spec's own decisions D9 and D10 (where rule R56 puts them): at a multiple of 4 in `CODE_REGION`, the four bytes there, big-endian, are the word; where it decodes to
an instruction, the step is that instruction's own meaning, with nothing added around it. -/
def Obligations.StepRunsTheDecodedInstruction : Prop :=
  ∀ (s : State) (b0 b1 b2 b3 : Byte) (i : Instr), s.pc.toNat % 4 = 0 →
    s.isCode s.pc = true → s.isCode (s.pc + 1#32) = true → s.isCode (s.pc + 2#32) = true →
    s.isCode (s.pc + 3#32) = true →
    s.readByte s.pc = some b0 → s.readByte (s.pc + 1#32) = some b1 → s.readByte (s.pc + 2#32) = some b2 →
    s.readByte (s.pc + 3#32) = some b3 →
    decodeWord s.params.rcIgnored (b0 ++ b1 ++ b2 ++ b3) = .instr i → step s = exec i s

/-- The model's own loading (log entry 8): a word that decodes, loaded at `pc`, is what the next step runs. -/
def Obligations.LoadedWordIsWhatTheNextStepRuns : Prop :=
  ∀ (s : State) (w : Nat) (i : Instr), s.pc.toNat % 4 = 0 → w < 2 ^ 32 →
    decodeWord s.params.rcIgnored (BitVec.ofNat 32 w) = .instr i →
    step (s.withFetchWord 32 w) = exec i (s.withFetchWord 32 w) ∧
    (s.params.rcIgnored = false → decodeTableWord 32 w = some i)

/-- The model's invariant (log entries 7, 10 and 20), which every step keeps: memory in its canonical form, `pc` a multiple of 4, a positive granule. -/
def Obligations.StepKeepsTheInvariant : Prop :=
  ∀ s t : State, s.inv → step s = .next t → t.inv

/-- The state after reset meets the invariant. -/
def Obligations.ResetMeetsTheInvariant : Prop := State.reset.inv

/-- The spec's own decisions D5 and D9 (rules R32, R50, R55): no run changes a parameter, a byte of program text, or a byte outside `MEM_ADMIT`. -/
def Obligations.RunsKeepTextParametersAndUnadmittedBytes : Prop :=
  ∀ (k : Nat) (s t : State), Host.Core.run Sys2Proof.core k s = .next t →
    t.params = s.params ∧
    ∀ a, s.isCode a = true ∨ s.admits a = false → t.readByte a = s.readByte a

/-- Rules R24, R25, R27: no run changes CR, XER, an FPR or a VR. -/
def Obligations.RunsLeaveTheOtherRegistersAlone : Prop :=
  ∀ (k : Nat) (s t : State), Host.Core.run Sys2Proof.core k s = .next t →
    t.cr = s.cr ∧ t.xer = s.xer ∧ t.fpr = s.fpr ∧ t.vr = s.vr

/-- Rule R114 with the spec's decisions D11 and D16: `k` completed steps move `pc` on by exactly `4 * k`: a program of
`n` words that ends normally takes exactly `n` steps. That the advance is exact with no premise on `pc` rests on the
check `PcWrap`, the spec's own decision D11 (log entry 11). -/
def Obligations.RunsAdvancePcByFourEachStep : Prop :=
  ∀ (k : Nat) (s t : State), Host.Core.run Sys2Proof.core k s = .next t → t.pc.toNat = s.pc.toNat + 4 * k

/-- The spec's own decisions D12 and D16 (rule R161): a step inside a loaded program either completes, one word further in the same loaded program, or
ends in `InvalidForm`, `AddressWrap` or `StoreNotAdmitted`: never in `NotInScope`, `StoreToCode` or `PcWrap`, and never
for want of a word to fetch. -/
def Obligations.LoadedProgramStepsStayInTheProgram : Prop :=
  ∀ (s : State) (base n : Nat), s.programLoaded base n →
    base ≤ s.pc.toNat → s.pc.toNat < base + 4 * n → s.pc.toNat % 4 = 0 →
    (∃ t, step s = .next t ∧ t.programLoaded base n ∧ t.pc.toNat = s.pc.toNat + 4) ∨
    (∃ w, step s = .fault (.invalidForm w s.pc)) ∨ (∃ ea, step s = .fault (.addressWrap ea s.pc)) ∨
    (∃ ea, step s = .fault (.storeNotAdmitted ea s.pc))

/-- The defaults the spec decides (its rule R6's table), at reset, and that the model's own start address (log entry 5)
is a multiple of 4. -/
def Obligations.ResetTakesTheSpecsDefaults : Prop :=
  State.reset.reservation = none ∧ State.reset.params.invalidForm = .fault ∧
  State.reset.params.rcIgnored = false ∧ State.reset.params.eaTop = .fault ∧ State.reset.pc.toNat % 4 = 0
end

