-- ==== Sys2Proof/Laws/Decode.lean ====
section
/-! SUPPORT. The small lemmas of the decoder's fields, of the encoder and of the bytes of a word. -/

namespace Sys2Proof

theorem regBits_rsField (w : Word) : regBits (rsField w) = (w.extractLsb' 21 5).setWidth 32 := rfl
theorem regBits_raField (w : Word) : regBits (raField w) = (w.extractLsb' 16 5).setWidth 32 := rfl
theorem regBits_rbField (w : Word) : regBits (rbField w) = (w.extractLsb' 11 5).setWidth 32 := rfl

theorem regBits_getLsbD (r : Reg) (n : Nat) :
    (regBits r).getLsbD n = (BitVec.ofFin (w := 5) r).getLsbD n := by
  unfold regBits
  by_cases h : n < 32
  · simp only [BitVec.getLsbD_setWidth, h, decide_true, Bool.true_and]
  · rw [BitVec.getLsbD_of_ge _ n (by omega), BitVec.getLsbD_of_ge _ n (by omega)]

theorem wordOfBytes_bytesOfWord (w : Word) :
    wordOfBytes (w.extractLsb' 24 8) (w.extractLsb' 16 8) (w.extractLsb' 8 8) (w.extractLsb' 0 8) = w := by
  apply BitVec.eq_of_getLsbD_eq
  intro i hi
  simp only [wordOfBytes, BitVec.getLsbD_append, BitVec.getLsbD_extractLsb']
  interval_cases i <;> simp

/-- Everything `decodeWord` answers (rule R85). -/
theorem decodeWord_instr (rcIgnored : Bool) (w : Word) (i : Instr) (h : decodeWord rcIgnored w = .instr i) :
    (opcdField w = 44#6 ∧ i = .sth (rsField w) (raField w) (dField w)) ∨
    (opcdField w = 45#6 ∧ i = .sthu (rsField w) (raField w) (dField w)) ∨
    (opcdField w = 31#6 ∧ xoField w = 407#10 ∧ rcLegal rcIgnored (rcField w) = true ∧
      i = .sthx (rsField w) (raField w) (rbField w) (rcField w)) ∨
    (opcdField w = 31#6 ∧ xoField w = 439#10 ∧ rcLegal rcIgnored (rcField w) = true ∧
      i = .sthux (rsField w) (raField w) (rbField w) (rcField w)) := by
  unfold decodeWord at h
  split_ifs at h with h1 h2 h3 h4
  · cases h
    exact .inl ⟨h1, rfl⟩
  · cases h
    exact .inr (.inl ⟨h2, rfl⟩)
  · cases h
    exact .inr (.inr (.inl ⟨h3.1, h3.2.1, h3.2.2, rfl⟩))
  · cases h
    exact .inr (.inr (.inr ⟨h4.1, h4.2.1, h4.2.2, rfl⟩))

end Sys2Proof
end

