-- ==== Sys2Proof/Laws/State.lean ====
section
/-! SUPPORT. What each update of the state leaves of each field: one lemma per field per update. -/

namespace Sys2Proof.Machine

variable (s : State) (r : Reg) (v : Dword) (a : Addr) (b : Byte) (h : Half)

/-! ## `setX` -/

@[simp] theorem State.setX_gpr : (s.setX r v).gpr = s.gpr.set r v := rfl
@[simp] theorem State.setX_pc : (s.setX r v).pc = s.pc := rfl
@[simp] theorem State.setX_cr : (s.setX r v).cr = s.cr := rfl
@[simp] theorem State.setX_xer : (s.setX r v).xer = s.xer := rfl
@[simp] theorem State.setX_fpr : (s.setX r v).fpr = s.fpr := rfl
@[simp] theorem State.setX_vr : (s.setX r v).vr = s.vr := rfl
@[simp] theorem State.setX_mem : (s.setX r v).mem = s.mem := rfl
@[simp] theorem State.setX_reservation : (s.setX r v).reservation = s.reservation := rfl
@[simp] theorem State.setX_draws : (s.setX r v).draws = s.draws := rfl
@[simp] theorem State.setX_params : (s.setX r v).params = s.params := rfl

/-! ## `advancePc` -/

@[simp] theorem State.advancePc_gpr : (s.advancePc).gpr = s.gpr := rfl
@[simp] theorem State.advancePc_pc : (s.advancePc).pc = s.pc + 4#32 := rfl
@[simp] theorem State.advancePc_cr : (s.advancePc).cr = s.cr := rfl
@[simp] theorem State.advancePc_xer : (s.advancePc).xer = s.xer := rfl
@[simp] theorem State.advancePc_fpr : (s.advancePc).fpr = s.fpr := rfl
@[simp] theorem State.advancePc_vr : (s.advancePc).vr = s.vr := rfl
@[simp] theorem State.advancePc_mem : (s.advancePc).mem = s.mem := rfl
@[simp] theorem State.advancePc_reservation : (s.advancePc).reservation = s.reservation := rfl
@[simp] theorem State.advancePc_draws : (s.advancePc).draws = s.draws := rfl
@[simp] theorem State.advancePc_params : (s.advancePc).params = s.params := rfl

/-! ## `writeByte` -/

@[simp] theorem State.writeByte_gpr : (s.writeByte a b).gpr = s.gpr := rfl
@[simp] theorem State.writeByte_pc : (s.writeByte a b).pc = s.pc := rfl
@[simp] theorem State.writeByte_cr : (s.writeByte a b).cr = s.cr := rfl
@[simp] theorem State.writeByte_xer : (s.writeByte a b).xer = s.xer := rfl
@[simp] theorem State.writeByte_fpr : (s.writeByte a b).fpr = s.fpr := rfl
@[simp] theorem State.writeByte_vr : (s.writeByte a b).vr = s.vr := rfl
@[simp] theorem State.writeByte_mem : (s.writeByte a b).mem = Memory.write s.mem a.toNat b := rfl
@[simp] theorem State.writeByte_reservation : (s.writeByte a b).reservation = s.reservation := rfl
@[simp] theorem State.writeByte_draws : (s.writeByte a b).draws = s.draws := rfl
@[simp] theorem State.writeByte_params : (s.writeByte a b).params = s.params := rfl

/-! ## `memWrite2` -/

@[simp] theorem State.memWrite2_gpr : (s.memWrite2 a h).gpr = s.gpr := rfl
@[simp] theorem State.memWrite2_pc : (s.memWrite2 a h).pc = s.pc := rfl
@[simp] theorem State.memWrite2_cr : (s.memWrite2 a h).cr = s.cr := rfl
@[simp] theorem State.memWrite2_xer : (s.memWrite2 a h).xer = s.xer := rfl
@[simp] theorem State.memWrite2_fpr : (s.memWrite2 a h).fpr = s.fpr := rfl
@[simp] theorem State.memWrite2_vr : (s.memWrite2 a h).vr = s.vr := rfl
@[simp] theorem State.memWrite2_mem : (s.memWrite2 a h).mem = Memory.write (Memory.write s.mem a.toNat (highByte h)) (a + 1#32).toNat (lowByte h) := rfl
@[simp] theorem State.memWrite2_reservation : (s.memWrite2 a h).reservation = s.reservation := rfl
@[simp] theorem State.memWrite2_draws : (s.memWrite2 a h).draws = s.draws := rfl
@[simp] theorem State.memWrite2_params : (s.memWrite2 a h).params = s.params := rfl

/-! ## `resInvalidate` -/

@[simp] theorem State.resInvalidate_gpr : (s.resInvalidate a).gpr = s.gpr := by
  unfold State.resInvalidate
  split <;> [rfl; split <;> rfl]
@[simp] theorem State.resInvalidate_pc : (s.resInvalidate a).pc = s.pc := by
  unfold State.resInvalidate
  split <;> [rfl; split <;> rfl]
@[simp] theorem State.resInvalidate_cr : (s.resInvalidate a).cr = s.cr := by
  unfold State.resInvalidate
  split <;> [rfl; split <;> rfl]
@[simp] theorem State.resInvalidate_xer : (s.resInvalidate a).xer = s.xer := by
  unfold State.resInvalidate
  split <;> [rfl; split <;> rfl]
@[simp] theorem State.resInvalidate_fpr : (s.resInvalidate a).fpr = s.fpr := by
  unfold State.resInvalidate
  split <;> [rfl; split <;> rfl]
@[simp] theorem State.resInvalidate_vr : (s.resInvalidate a).vr = s.vr := by
  unfold State.resInvalidate
  split <;> [rfl; split <;> rfl]
@[simp] theorem State.resInvalidate_mem : (s.resInvalidate a).mem = s.mem := by
  unfold State.resInvalidate
  split <;> [rfl; split <;> rfl]
@[simp] theorem State.resInvalidate_params : (s.resInvalidate a).params = s.params := by
  unfold State.resInvalidate
  split <;> [rfl; split <;> rfl]

/-! ## `storeHalf` -/

@[simp] theorem State.storeHalf_gpr : (s.storeHalf a h).gpr = s.gpr := by simp [State.storeHalf]
@[simp] theorem State.storeHalf_pc : (s.storeHalf a h).pc = s.pc := by simp [State.storeHalf]
@[simp] theorem State.storeHalf_cr : (s.storeHalf a h).cr = s.cr := by simp [State.storeHalf]
@[simp] theorem State.storeHalf_xer : (s.storeHalf a h).xer = s.xer := by simp [State.storeHalf]
@[simp] theorem State.storeHalf_fpr : (s.storeHalf a h).fpr = s.fpr := by simp [State.storeHalf]
@[simp] theorem State.storeHalf_vr : (s.storeHalf a h).vr = s.vr := by simp [State.storeHalf]
@[simp] theorem State.storeHalf_mem : (s.storeHalf a h).mem = (s.memWrite2 a h).mem := by simp [State.storeHalf]
@[simp] theorem State.storeHalf_reservation : (s.storeHalf a h).reservation = (s.resInvalidate a).reservation := by simp [State.storeHalf]
@[simp] theorem State.storeHalf_draws : (s.storeHalf a h).draws = (s.resInvalidate a).draws := by simp [State.storeHalf]
@[simp] theorem State.storeHalf_params : (s.storeHalf a h).params = s.params := by simp [State.storeHalf]

/-! ## Reads after updates that do not concern them -/

@[simp] theorem State.x_advancePc (q : Reg) : s.advancePc.x q = s.x q := rfl
@[simp] theorem State.x_writeByte (q : Reg) : (s.writeByte a b).x q = s.x q := rfl
@[simp] theorem State.x_memWrite2 (q : Reg) : (s.memWrite2 a h).x q = s.x q := rfl
@[simp] theorem State.x_storeHalf (q : Reg) : (s.storeHalf a h).x q = s.x q := by simp [State.x]
@[simp] theorem State.readByte_setX (q : Addr) : (s.setX r v).readByte q = s.readByte q := rfl
@[simp] theorem State.readByte_advancePc (q : Addr) : s.advancePc.readByte q = s.readByte q := rfl
@[simp] theorem State.readByte_resInvalidate (q : Addr) : (s.resInvalidate a).readByte q = s.readByte q := by
  simp [State.readByte]

end Sys2Proof.Machine
end

