-- ==== Sys2Proof/Laws/Memory.lean ====
section
/-! SUPPORT. Memory and registers: a read after a write, and the canonical form that every memory operation keeps. -/

namespace Sys2Proof.Machine

/-! ## One byte -/

theorem Memory.read_write (m : Memory) (a c : Nat) (b : Byte) :
    Memory.read (Memory.write m a b) c = if c = a then some b else Memory.read m c := by
  induction m with
  | nil => simp [Memory.write, Memory.read, eq_comm]
  | cons p rest ih =>
    obtain ⟨k, v⟩ := p
    simp only [Memory.write]
    split_ifs <;> simp only [Memory.read, ih] <;> split_ifs <;> first | rfl | omega

theorem Memory.all_write (m : Memory) (k a : Nat) (b : Byte) (hk : k < a)
    (h : (m.all fun c => decide (k < c.1)) = true) :
    ((Memory.write m a b).all fun c => decide (k < c.1)) = true := by
  induction m with
  | nil => simpa [Memory.write] using hk
  | cons p rest ih =>
    obtain ⟨n, v⟩ := p
    simp only [List.all_cons, Bool.and_eq_true, decide_eq_true_eq] at h
    simp only [Memory.write]
    split_ifs <;> simp [List.all_cons, h.1, hk, h.2, ih h.2]

theorem Memory.wf_write (m : Memory) (a : Nat) (b : Byte) (ha : a < 2 ^ 32) (h : Memory.wf m = true) :
    Memory.wf (Memory.write m a b) = true := by
  induction m with
  | nil => simpa [Memory.write, Memory.wf] using ha
  | cons p rest ih =>
    obtain ⟨k, v⟩ := p
    simp only [Memory.wf, Bool.and_eq_true, decide_eq_true_eq] at h
    obtain ⟨⟨hk, hall⟩, hrest⟩ := h
    norm_num at ha hk
    simp only [Memory.write]
    split_ifs with h1 h2
    · have : (rest.all fun c => decide (a < c.1)) = true := by
        simp only [List.all_eq_true, decide_eq_true_eq] at hall ⊢
        intro c hc
        exact h1.trans (hall c hc)
      simp [Memory.wf, ha, hk, hall, hrest, h1, this]
    · subst h2
      simp [Memory.wf, ha, hall, hrest]
    · simp [Memory.wf, hk, ih hrest, Memory.all_write rest k a b (by omega) hall]

/-! ## The state's memory -/

theorem State.readByte_writeByte (s : State) (a c : Addr) (b : Byte) :
    (s.writeByte a b).readByte c = if c = a then some b else s.readByte c := by
  simp [State.readByte, Memory.read_write, BitVec.toNat_inj]

theorem addr_ne_add_one (a : Addr) : a ≠ a + 1#32 := by
  intro h
  have := congrArg BitVec.toNat h
  simp only [BitVec.toNat_add, BitVec.toNat_ofNat] at this
  omega

/-- Everything `memWrite2` does to memory (rule R44). -/
theorem State.readByte_memWrite2 (s : State) (a c : Addr) (v : Half) :
    (s.memWrite2 a v).readByte c =
      if c = a + 1#32 then some (lowByte v) else if c = a then some (highByte v) else s.readByte c := by
  simp [State.memWrite2, State.readByte_writeByte]

theorem State.readByte_storeHalf (s : State) (a c : Addr) (v : Half) :
    (s.storeHalf a v).readByte c =
      if c = a + 1#32 then some (lowByte v) else if c = a then some (highByte v) else s.readByte c := by
  simp [State.storeHalf, State.readByte_memWrite2]

theorem State.wf_writeByte (s : State) (a : Addr) (b : Byte) (h : Memory.wf s.mem = true) :
    Memory.wf (s.writeByte a b).mem = true :=
  Memory.wf_write _ _ _ a.isLt h

theorem State.wf_memWrite2 (s : State) (a : Addr) (v : Half) (h : Memory.wf s.mem = true) :
    Memory.wf (s.memWrite2 a v).mem = true :=
  State.wf_writeByte _ _ _ (State.wf_writeByte _ _ _ h)

theorem State.wf_storeHalf (s : State) (a : Addr) (v : Half) (h : Memory.wf s.mem = true) :
    Memory.wf (s.storeHalf a v).mem = true :=
  State.wf_memWrite2 _ _ _ (by simpa using h)

theorem State.wf_writeBytes (bs : List Byte) (s : State) (a : Addr) (h : Memory.wf s.mem = true) :
    Memory.wf (s.writeBytes a bs).mem = true := by
  induction bs generalizing s a with
  | nil => exact h
  | cons b rest ih => exact ih _ _ (State.wf_writeByte s a b h)

theorem State.wf_placeText (s : State) (base : Addr) (words : List Word) (h : Memory.wf s.mem = true) :
    Memory.wf (s.placeText base words).mem = true :=
  State.wf_writeBytes _ s base h

theorem State.wf_reset : Memory.wf State.reset.mem = true := rfl

/-! ## The general registers -/

theorem State.x_setX (s : State) (r q : Reg) (v : Dword) : (s.setX r v).x q = if q = r then v else s.x q := by
  simp only [State.setX, State.x, Fin.getElem_fin, Vector.getElem_set]
  split_ifs with h1 h2 h2 <;> simp_all [Fin.ext_iff]

end Sys2Proof.Machine
end

