-- ==== Sys2Proof/Laws/PerInstr.lean ====
section
/-! SUPPORT. The statement made per instruction (LAWS.json): the word of a well-formed instruction matches its own
row of rule R74's table. -/

namespace Sys2Proof.Laws.MatchesRow

/-- The word of a well-formed instruction, under its row's mask, is its row's opcode word (rule R74). -/
def Statement (i : Instr) : Prop :=
  ∀ rcIgnored, i.wellFormed rcIgnored = true → encode i &&& i.mask rcIgnored = i.opcodeWord

theorem sth (rs ra : Reg) (d : Disp) : Statement (.sth rs ra d) := by
  intro b _
  simp only [encode, regBits, Instr.mask, dMask, Instr.opcodeWord]
  generalize (BitVec.ofFin rs : BitVec 5) = x
  generalize (BitVec.ofFin ra : BitVec 5) = y
  apply BitVec.eq_of_getLsbD_eq
  intro n hn
  interval_cases n <;> simp

theorem sthu (rs ra : Reg) (d : Disp) : Statement (.sthu rs ra d) := by
  intro b _
  simp only [encode, regBits, Instr.mask, dMask, Instr.opcodeWord]
  generalize (BitVec.ofFin rs : BitVec 5) = x
  generalize (BitVec.ofFin ra : BitVec 5) = y
  apply BitVec.eq_of_getLsbD_eq
  intro n hn
  interval_cases n <;> simp

theorem sthux (rs ra rb : Reg) (rc : BitVec 1) : Statement (.sthux rs ra rb rc) := by
  intro b h
  simp only [encode, regBits, Instr.mask, xMask, Instr.opcodeWord]
  generalize (BitVec.ofFin rs : BitVec 5) = x
  generalize (BitVec.ofFin ra : BitVec 5) = y
  generalize (BitVec.ofFin rb : BitVec 5) = z
  apply BitVec.eq_of_getLsbD_eq
  intro n hn
  cases b with
  | true => interval_cases n <;> simp
  | false =>
    have hrc : rc = 0#1 := by simpa [Instr.wellFormed, rcLegal] using h
    subst hrc
    interval_cases n <;> simp

theorem sthx (rs ra rb : Reg) (rc : BitVec 1) : Statement (.sthx rs ra rb rc) := by
  intro b h
  simp only [encode, regBits, Instr.mask, xMask, Instr.opcodeWord]
  generalize (BitVec.ofFin rs : BitVec 5) = x
  generalize (BitVec.ofFin ra : BitVec 5) = y
  generalize (BitVec.ofFin rb : BitVec 5) = z
  apply BitVec.eq_of_getLsbD_eq
  intro n hn
  cases b with
  | true => interval_cases n <;> simp
  | false =>
    have hrc : rc = 0#1 := by simpa [Instr.wellFormed, rcLegal] using h
    subst hrc
    interval_cases n <;> simp

end Sys2Proof.Laws.MatchesRow
end

