-- ==== Sys2Proof/Laws/Step.lean ====
section
/-! SUPPORT. Everything a shared operation, an instruction and a step can do, said once. -/

namespace Sys2Proof.Machine

/-! ## The reservation table (rule R28) -/

theorem Reservation.survives_eq (r : Reservation) (g draw : Nat) (ea : Addr) :
    r.survives g draw ea = (!r.covers g ea &&
      (!r.covers g (ea + 1#32) || !Config.straddleDraw draw r.holder r.address.toNat)) := by
  unfold Reservation.survives
  split_ifs <;> simp_all

theorem State.resInvalidate_reservation (s : State) (ea : Addr) :
    (s.resInvalidate ea).reservation = s.reservation.map fun t =>
      if t.enabled then { t with live := t.live.filter fun r => r.survives t.granule s.draws ea } else t := by
  rcases h : s.reservation with _ | t
  · simp [State.resInvalidate, h]
  · obtain ⟨e, g, live⟩ := t
    cases e <;> cases live <;> simp [State.resInvalidate, h]

/-! ## The checks (rule R112) -/

theorem State.checkStore_none (s : State) (ea : Addr) : s.checkStore ea = none ↔ s.storeAllowed ea := by
  unfold State.checkStore State.storeAllowed
  split_ifs with h1 h2 h3 h4
  · simp [h1]
  · simp only [false_iff]
    rintro ⟨-, -, h, -⟩
    simp [h] at h3
  · simp only [false_iff]
    exact fun h => by omega
  · have h3' : s.isCode ea = false ∧ s.isCode (ea + 1#32) = false := by simpa using h3
    exact ⟨fun _ => ⟨h1, h2, h3', by omega⟩, fun _ => rfl⟩
  · simp only [false_iff]
    exact fun h => h2 h.2.1

/-! ## The stores (rule R102) -/

theorem State.store_next (s t : State) (ea : Addr) (v : Half) :
    s.store ea v = .next t ↔ s.storeAllowed ea ∧ t = (s.storeHalf ea v).advancePc := by
  rw [← State.checkStore_none]
  unfold State.store
  rcases s.checkStore ea with _ | (_ | _) <;> simp [Stop.outcome, eq_comm]

theorem State.storeUpdate_next (s t : State) (ea : Addr) (v : Half) (ra : Reg) (back : Dword) :
    s.storeUpdate ea v ra back = .next t ↔
      s.storeAllowed ea ∧ t = ((s.storeHalf ea v).setX ra back).advancePc := by
  rw [← State.checkStore_none]
  unfold State.storeUpdate
  rcases s.checkStore ea with _ | (_ | _) <;> simp [Stop.outcome, eq_comm]

/-! ## An instruction -/

/-- The state a completed instruction leaves, for all four at once (rule R102). -/
def State.afterStore (s : State) (i : Instr) : State :=
  let stored := s.storeHalf (s.storeAddress i) (s.storeValue i)
  match i.updatedReg with
  | none => stored.advancePc
  | some ra => (stored.setX ra (zext64 (s.storeAddress i))).advancePc

/-- Everything an instruction can do, for all four at once: check (1) of rule R112, checks (2) to (5), or it completes. -/
theorem exec_eq (i : Instr) (s : State) :
    exec i s =
      if s.formStops i then .fault (.invalidForm (encode i) s.pc)
      else match s.checkStore (s.storeAddress i) with
        | some e => e.outcome
        | none => .next (s.afterStore i) := by
  cases i with
  | sth rs ra d =>
    rw [if_neg (by simp [Instr.isInvalidForm])]
    rfl
  | sthx rs ra rb rc =>
    rw [if_neg (by simp [Instr.isInvalidForm])]
    rfl
  | sthu rs ra d =>
    have hform : s.invalidFormStops ra = true ↔ s.formStops (.sthu rs ra d) := by
      simp [Instr.isInvalidForm, State.invalidFormStops]
    simp only [exec, execSthu, hform]
    rfl
  | sthux rs ra rb rc =>
    have hform : s.invalidFormStops ra = true ↔ s.formStops (.sthux rs ra rb rc) := by
      simp [Instr.isInvalidForm, State.invalidFormStops]
    simp only [exec, execSthux, hform]
    rfl

/-- An instruction completes exactly where its form does not stop it and its store is allowed. -/
theorem exec_next (i : Instr) (s t : State) :
    exec i s = .next t ↔
      ¬ s.formStops i ∧ s.storeAllowed (s.storeAddress i) ∧ t = s.afterStore i := by
  rw [exec_eq, ← State.checkStore_none]
  split_ifs with hf
  · simp [hf]
  · rcases s.checkStore (s.storeAddress i) with _ | (_ | _) <;> simp [Stop.outcome, hf, eq_comm]

section
variable (s : State) (i : Instr)

@[simp] theorem State.afterStore_pc : (s.afterStore i).pc = s.pc + 4#32 := by cases i <;> simp [State.afterStore, Instr.updatedReg]
@[simp] theorem State.afterStore_cr : (s.afterStore i).cr = s.cr := by cases i <;> simp [State.afterStore, Instr.updatedReg]
@[simp] theorem State.afterStore_xer : (s.afterStore i).xer = s.xer := by cases i <;> simp [State.afterStore, Instr.updatedReg]
@[simp] theorem State.afterStore_fpr : (s.afterStore i).fpr = s.fpr := by cases i <;> simp [State.afterStore, Instr.updatedReg]
@[simp] theorem State.afterStore_vr : (s.afterStore i).vr = s.vr := by cases i <;> simp [State.afterStore, Instr.updatedReg]
@[simp] theorem State.afterStore_params : (s.afterStore i).params = s.params := by cases i <;> simp [State.afterStore, Instr.updatedReg]
@[simp] theorem State.afterStore_mem :
    (s.afterStore i).mem = (s.storeHalf (s.storeAddress i) (s.storeValue i)).mem := by
  cases i <;> simp [State.afterStore, Instr.updatedReg]
@[simp] theorem State.afterStore_reservation :
    (s.afterStore i).reservation = (s.resInvalidate (s.storeAddress i)).reservation := by
  cases i <;> simp [State.afterStore, Instr.updatedReg]

theorem State.readByte_afterStore (a : Addr) :
    (s.afterStore i).readByte a =
      if a = s.storeAddress i + 1#32 then some (lowByte (s.storeValue i))
      else if a = s.storeAddress i then some (highByte (s.storeValue i)) else s.readByte a := by
  rw [← State.readByte_storeHalf]
  simp [State.readByte]

theorem State.x_afterStore (q : Reg) :
    (s.afterStore i).x q = if i.updatedReg = some q then zext64 (s.storeAddress i) else s.x q := by
  cases i <;> simp [State.afterStore, Instr.updatedReg, State.x_setX, eq_comm]

end

/-! ## A step and a run -/

theorem step_next (s t : State) : step s = .next t ↔ ∃ i, s.fetch s.pc = .instr i ∧ exec i s = .next t := by
  unfold step
  split
  · rename_i i h
    simp [h]
  · rename_i e h
    cases e <;> simp [h, Stop.outcome]

/-- What the fetch needs to give an instruction (rule R56). -/
theorem State.fetch_instr (s : State) (pc : Addr) (i : Instr) :
    s.fetch pc = .instr i ↔ pc.toNat % 4 = 0 ∧ s.textAt pc = true ∧
      ∃ w, s.memRead4 pc = some w ∧ decodeWord s.params.rcIgnored w = .instr i := by
  unfold State.fetch
  split_ifs with h1 h2
  · simp [h1]
  · simp [h2]
  · have h2' : s.textAt pc = true := by simpa using h2
    cases hm : s.memRead4 pc with
    | none => simp
    | some w => cases hd : decodeWord s.params.rcIgnored w <;> simp [hd, h2', not_not.mp h1]

/-- A relation that is reflexive, and that a step extends, holds of the two ends of a run. -/
theorem run_rel (R : State → State → Prop) (hrefl : ∀ s, R s s)
    (hstep : ∀ s t u, step s = .next t → R t u → R s u) (k : Nat) (s u : State)
    (h : Host.Core.run Sys2Proof.core k s = .next u) : R s u := by
  induction k generalizing s with
  | zero =>
    cases h
    exact hrefl _
  | succ k ih =>
    simp only [Host.Core.run] at h
    split at h
    · rename_i t ht
      exact hstep s t u ht (ih t h)
    · cases h
    · cases h

end Sys2Proof.Machine
end

