-- ==== Sys2Proof/Tests/Slice0.lean ====
section
/-! SUPPORT. The model's own tests. Expected results come from the spec: vectors E, X, V, K, Q of 95_test_vectors.md
and rule R74's bit patterns. Then one witness per statement that has hypotheses, and per clause where clauses meet. -/

namespace Sys2Proof.Tests

open Sys2Proof.Machine

/-! ## Helpers -/

/-- Reset with some general registers set. -/
def withRegs (regs : List (Reg × Dword)) : State := regs.foldl (fun s p => s.setX p.1 p.2) State.reset

/-- A state with other parameters. -/
def withParams (s : State) (f : Params → Params) : State := { s with params := f s.params }

/-- A state with a reservation table of one live reservation. -/
def withReservation (s : State) (enabled : Bool) (granule : Nat) (a : Addr) : State :=
  { s with reservation := some { enabled := enabled, granule := granule, live := [⟨1, a⟩] } }

/-- The next state, if there is one. -/
def nextOf : Host.Outcome State Fault Refusal → Option State
  | .next t => some t
  | .fault _ => none
  | .refused _ => none

/-- Why the step stopped, if it did. -/
def stopOf : Host.Outcome State Fault Refusal → Option Stop
  | .next _ => none
  | .fault f => some (.fault f)
  | .refused r => some (.refusal r)

/-- The two bytes at an address, one register and `pc` after one step of a word loaded at `pc`. -/
def after (s : State) (w : Nat) (a : Addr) (r : Reg) : Option (Option Half × Dword × Addr) :=
  (nextOf (step (s.withFetchWord 32 w))).map fun t => (t.memRead2 a, t.x r, t.pc)

/-- How the step of a word loaded at `pc` stops. -/
def stopAfter (s : State) (w : Nat) : Option Stop := stopOf (step (s.withFetchWord 32 w))

/-! ## Decoding: words written out bit by bit from rule R74's patterns -/

-- E1: 101100 00011 00100 0000000000001000
theorem test_decode_sth : decodeWord false 0b10110000011001000000000000001000#32 = .instr (.sth 3 4 8#16) := by decide
-- E2: 101101 00011 00100 0000000000001000
theorem test_decode_sthu : decodeWord false 0b10110100011001000000000000001000#32 = .instr (.sthu 3 4 8#16) := by decide
-- E3: 011111 00011 00100 00101 0110010111 0
theorem test_decode_sthx : decodeWord false 0b01111100011001000010101100101110#32 = .instr (.sthx 3 4 5 0#1) := by decide
-- E4: 011111 00011 00100 00101 0110110111 0
theorem test_decode_sthux : decodeWord false 0b01111100011001000010101101101110#32 = .instr (.sthux 3 4 5 0#1) := by decide
-- E5 as bytes, with a byte after it
theorem test_decode_bytes :
    decodeBytes false [0xB0#8, 0x64#8, 0xFF#8, 0xFE#8, 0x01#8] = .instr (.sth 3 4 0xFFFE#16) [0x01#8] := by decide
theorem test_decode_short : decodeBytes false [0xB0#8, 0x64#8] = .truncated [0xB0#8, 0x64#8] := by decide
-- X3, X6, X8
theorem test_decode_near_miss : decodeWord false 0x7C642B2C#32 = .notInScope 0x7C642B2C#32 := by decide
theorem test_decode_invalid_form : decodeWord false 0xB4600008#32 = .instr (.sthu 3 0 8#16) := by decide
theorem test_decodeTableWord : decodeTableWord 32 0x7C00036E = some (.sthux 0 0 0 0#1) := by decide
-- E1 to E4, E9 and E11 the other way
theorem test_encode :
    encode (.sth 3 4 8#16) = 0xB0640008#32 ∧ encode (.sthu 3 4 8#16) = 0xB4640008#32 ∧
    encode (.sthx 3 4 5 0#1) = 0x7C642B2E#32 ∧ encode (.sthux 3 4 5 0#1) = 0x7C642B6E#32 ∧
    encode (.sthu 31 31 0xFFFF#16) = 0xB7FFFFFF#32 ∧ encode (.sthux 31 31 31 0#1) = 0x7FFFFB6E#32 := by decide

/-! ## WellFormed: the one check, in the two forms that have it -/

theorem test_ill_formed_sthx : (Instr.sthx 3 4 5 1#1).wellFormed false = false := by decide
theorem test_ill_formed_sthux : (Instr.sthux 3 4 5 1#1).wellFormed false = false := by decide
theorem test_rc_ignored_well_formed : (Instr.sthx 3 4 5 1#1).wellFormed true = true := by decide

/-! ## The assembler's spelling (rule R86; E5, V3, V17, E4, V26) -/

theorem test_assembly :
    assembly (.sth 3 4 0xFFFE#16) = "sth r3, -2(r4)" ∧ assembly (.sth 5 0 256#16) = "sth r5, 256(0)" ∧
    assembly (.sthu 1 1 0xFFF0#16) = "sthu r1, -16(r1)" ∧ assembly (.sthux 3 4 5 0#1) = "sthux r3, r4, r5" ∧
    assembly (.sthx 3 0 5 0#1) = "sthx r3, 0, r5" := by decide

/-! ## One step of each instruction -/

-- V1
theorem test_sth : after (withRegs [(3, 0x1122334455667788#64), (4, 0x1000#64)]) 0xB0640008 0x1008#32 4 =
    some (some 0x7788#16, 0x1000#64, 0x10004#32) := by decide
-- V3: base 0, though r0 is not zero
theorem test_sth_base_zero : after (withRegs [(5, 0xBEEF#64), (0, 0xDEAD0000#64)]) 0xB0A00100 0x100#32 0 =
    some (some 0xBEEF#16, 0xDEAD0000#64, 0x10004#32) := by decide
-- V14: RS = RA, the old low half is stored
theorem test_sthu_same_register : after (withRegs [(4, 0x12345000#64)]) 0xB4840002 0x12345002#32 4 =
    some (some 0x5000#16, 0x12345002#64, 0x10004#32) := by decide
-- V16: the write-back is the 32-bit address
theorem test_sthu_below_zero : after (withRegs [(3, 0x9999#64), (4, 0x2#64)]) 0xB464FFFC 0xFFFFFFFE#32 4 =
    some (some 0x9999#16, 0x00000000FFFFFFFE#64, 0x10004#32) := by decide
-- V20
theorem test_sthux_truncates :
    after (withRegs [(3, 0xBEEF#64), (4, 0x100000000#64), (5, 0x2000000A1#64)]) 0x7C642B6E 0xA1#32 4 =
    some (some 0xBEEF#16, 0xA1#64, 0x10004#32) := by decide
-- V22: RA = RB
theorem test_sthux_doubles : after (withRegs [(3, 0x7777#64), (4, 0x900#64)]) 0x7C64236E 0x1200#32 4 =
    some (some 0x7777#16, 0x1200#64, 0x10004#32) := by decide
-- V26: base 0, though r0 is not zero
theorem test_sthx_base_zero :
    after (withRegs [(3, 0xF00D#64), (0, 0x9000#64), (5, 0x6000#64)]) 0x7C602B2E 0x6000#32 0 =
    some (some 0xF00D#16, 0x9000#64, 0x10004#32) := by decide
-- V30: RB = 0 is the real r0
theorem test_sthx_index_r0 :
    after (withRegs [(3, 0x0A0B#64), (4, 0x100#64), (0, 0x11#64)]) 0x7C64032E 0x111#32 4 =
    some (some 0x0A0B#16, 0x100#64, 0x10004#32) := by decide

/-! ## The checks of rule R112 -/

-- V10, under both policies
theorem test_address_wrap : stopAfter (withRegs [(3, 1#64)]) 0xB060FFFF =
    some (.fault (.addressWrap 0xFFFFFFFF#32 0x10000#32)) := by decide
theorem test_address_wrap_policy :
    after (withParams (withRegs [(3, 1#64)]) fun p => { p with eaTop := .wrap }) 0xB060FFFF 0xFFFFFFFF#32 3 =
    some (some 1#16, 1#64, 0x10004#32) := by decide
-- V18, under both policies
theorem test_invalid_form : stopAfter (withRegs [(3, 1#64), (0, 0x1000#64)]) 0xB4600008 =
    some (.fault (.invalidForm 0xB4600008#32 0x10000#32)) := by decide
theorem test_invalid_form_policy :
    after (withParams (withRegs [(3, 1#64), (0, 0x1000#64)]) fun p => { p with invalidForm := .snapshot })
      0xB4600008 0x1008#32 0 = some (some 1#16, 0x1008#64, 0x10004#32) := by decide
-- K1, K2
theorem test_not_admitted :
    stopAfter (withParams (withRegs [(4, 0x1000#64)]) fun p => { p with memAdmit := [⟨0x1000, 9⟩] }) 0xB0640008 =
    some (.fault (.storeNotAdmitted 0x1008#32 0x10000#32)) := by decide
theorem test_admitted :
    stopAfter (withParams (withRegs [(4, 0x1000#64)]) fun p => { p with memAdmit := [⟨0x1000, 10⟩] }) 0xB0640008 =
    none := by decide
-- K4: the second byte is in the region
theorem test_store_to_code : stopAfter (withRegs [(4, 0xFFFF#64)]) 0xB0640000 =
    some (.refusal (.storeToCode 0xFFFF#32 0x10000#32)) := by decide
-- K5
theorem test_pc_wrap : stopAfter { withRegs [(4, 0x1000#64)] with pc := 0xFFFFFFFC#32 } 0xB0640000 =
    some (.fault (.pcWrap 0xFFFFFFFC#32)) := by decide
-- K6: check (1) precedes check (2)
theorem test_invalid_form_first : stopAfter (withRegs [(0, 0xFFFFFFF7#64)]) 0xB4600008 =
    some (.fault (.invalidForm 0xB4600008#32 0x10000#32)) := by decide
-- X1, X4
theorem test_not_in_scope : stopAfter State.reset 0x7C642B2F =
    some (.refusal (.notInScope 0x7C642B2F#32 0x10000#32)) := by decide
theorem test_rc_ignored :
    stopAfter (withParams (withRegs [(4, 0x1000#64)]) fun p => { p with rcIgnored := true }) 0x7C642B2F = none := by
  decide
-- Rules R23, R56: what the fetch needs
theorem test_fetch_misaligned : stopAfter { State.reset with pc := 0x10002#32 } 0xB0000000 =
    some (.fault (.pcMisaligned 0x10002#32)) := by decide
theorem test_fetch_without_text : stopOf (step State.reset) = some (.refusal (.fetchOutsideText 0x10000#32)) := by decide
theorem test_fetch_unwritten :
    stopOf (step (withParams State.reset fun p => { p with codeRegion := [⟨0x10000, 4⟩] })) =
    some (.fault (.textUnwritten 0x10000#32)) := by decide

/-! ## The reservation table -/

-- Q1, Q2, Q4
theorem test_reservation_ended :
    ((withReservation State.reset true 128 0x2010#32).resInvalidate 0x2000#32).reservation =
    some { enabled := true, granule := 128, live := [] } := by decide
theorem test_reservation_elsewhere :
    ((withReservation State.reset true 128 0x3000#32).resInvalidate 0x2000#32).reservation =
    some { enabled := true, granule := 128, live := [⟨1, 0x3000#32⟩] } := by decide
theorem test_reservation_disabled :
    (withReservation State.reset false 128 0x2010#32).resInvalidate 0x2000#32 =
    withReservation State.reset false 128 0x2010#32 := by decide
-- Q3: the granule of EA + 1 alone: as the draw says, and no proof knows which
theorem test_reservation_straddled :
    ((withReservation State.reset true 128 0x2000#32).resInvalidate 0x1FFF#32).reservation =
    some { enabled := true, granule := 128,
           live := if Config.straddleDraw 0 1 0x2000 = true then [] else [⟨1, 0x2000#32⟩] } := by
  cases h : Config.straddleDraw 0 1 0x2000 <;>
    simp [withReservation, State.resInvalidate, Reservation.survives, Reservation.covers, granuleOf, State.reset, h]

/-! ## Witnesses: states and operands that meet the hypotheses of the statements -/

/-- `r3` a value, `r4` a base, `r5` an index, nothing else. -/
def ready : State := withRegs [(3, 0x1122334455667788#64), (4, 0x1000#64), (5, 0x21#64)]

/-- `ready` under `INVALID_FORM_POLICY = snapshot`. -/
def readySnapshot : State := withParams ready fun p => { p with invalidForm := .snapshot }

/-- `ready` under `EA_TOP_POLICY = wrap`, with `r4` such that `sth r3, 0(r4)` stores at the top. -/
def readyWrap : State := withParams (ready.setX 4 0xFFFFFFFF#64) fun p => { p with eaTop := .wrap }

/-- A program of one word, `sth r3, 8(r4)`, loaded at `0x10000`, with `MEM_ADMIT` clear of it. -/
def loaded : State :=
  withParams (ready.withFetchWord 32 0xB0640008) fun p => { p with memAdmit := [⟨0x1000, 0x100⟩] }

theorem witness_DecodeEncodeRoundTrip : (Instr.sthux 31 1 0 0#1).wellFormed false = true := by decide
theorem witness_EncodeInvertsDecode : decodeWord true 0x7C642B2F#32 = .instr (.sthx 3 4 5 1#1) := by decide
theorem witness_NoWordMatchesTwoRows :
    0x7C642B2E#32 &&& (Instr.sthx 3 4 5 0#1).mask false = (Instr.sthx 3 4 5 0#1).opcodeWord ∧
    0x7C642B2E#32 &&& (Instr.sthx 0 0 0 0#1).mask false = (Instr.sthx 0 0 0 0#1).opcodeWord := by decide
-- X1 and X5
theorem witness_WordsOutsideRowsAreRefused :
    (0x7C642B2F#32 &&& 0xFC000000#32 ≠ 0xB0000000#32 ∧ 0x7C642B2F#32 &&& 0xFC000000#32 ≠ 0xB4000000#32 ∧
      0x7C642B2F#32 &&& xMask false ≠ 0x7C00036E#32 ∧ 0x7C642B2F#32 &&& xMask false ≠ 0x7C00032E#32) ∧
    (0xB8640008#32 &&& 0xFC000000#32 ≠ 0xB0000000#32 ∧ 0xB8640008#32 &&& 0xFC000000#32 ≠ 0xB4000000#32 ∧
      0xB8640008#32 &&& xMask false ≠ 0x7C00036E#32 ∧ 0xB8640008#32 &&& xMask false ≠ 0x7C00032E#32) ∧
    (State.reset.withFetchWord 32 0x7C642B2F).pc.toNat % 4 = 0 ∧
    (State.reset.withFetchWord 32 0x7C642B2F).textAt 0x10000#32 = true ∧
    (State.reset.withFetchWord 32 0x7C642B2F).memRead4 0x10000#32 = some 0x7C642B2F#32 := by decide
-- X1 and E3, X2 and E4: the bit set and clear
theorem witness_RecordBit_sthx :
    (0x7C642B2F#32).extractLsb' 26 6 = 31#6 ∧ (0x7C642B2F#32).extractLsb' 1 10 = 407#10 ∧
    (0x7C642B2F#32).extractLsb' 0 1 = 1#1 ∧ (0x7C642B2E#32).extractLsb' 26 6 = 31#6 ∧
    (0x7C642B2E#32).extractLsb' 1 10 = 407#10 ∧ (0x7C642B2E#32).extractLsb' 0 1 = 0#1 := by decide
theorem witness_RecordBit_sthux :
    (0x7C642B6F#32).extractLsb' 26 6 = 31#6 ∧ (0x7C642B6F#32).extractLsb' 1 10 = 439#10 ∧
    (0x7C642B6F#32).extractLsb' 0 1 = 1#1 ∧ (0x7C642B6E#32).extractLsb' 26 6 = 31#6 ∧
    (0x7C642B6E#32).extractLsb' 1 10 = 439#10 ∧ (0x7C642B6E#32).extractLsb' 0 1 = 0#1 := by decide
theorem witness_InvalidFormWords :
    decodeWord false 0xB4600008#32 = .instr (.sthu 3 0 8#16) ∧ (Instr.sthu 3 0 8#16).isInvalidForm = true ∧
    decodeWord false 0x7C602B6E#32 = .instr (.sthux 3 0 5 0#1) ∧ (Instr.sthux 3 0 5 0#1).isInvalidForm = true := by
  decide
theorem witness_RegistersHoldWhatWasLastWritten : (31 : Reg) ≠ 0 := by decide
-- V6 and V1: the same low 32 bits in every register
theorem witness_HighRegisterBits :
    (∀ r : Reg, ((ready.setX 4 0xFFFFFFFF00001000#64).gpr[r]).setWidth 32 = (ready.x r).setWidth 32) ∧
    (nextOf (exec (.sth 3 4 8#16) ready)).isSome = true := by
  refine ⟨fun r => ?_, by decide⟩
  fin_cases r <;> decide
-- the low half word kept, the high 48 bits replaced (V1)
theorem witness_OnlyTheLowHalf : (0xFFFFFFFFFFFF7788#64).setWidth 16 = (ready.x 3).setWidth 16 ∧
    (3 : Reg) ≠ 4 ∧ (3 : Reg) ≠ 5 ∧ (Instr.sth 3 4 8#16).sourceReg = 3 ∧
    (nextOf (exec (.sth 3 4 8#16) ready)).isSome = true := by decide
theorem witness_BaseZeroFormIgnoresR0 : (3 : Reg) ≠ 0 ∧ (5 : Reg) ≠ 0 := by decide

theorem witness_SthStoresAndCompletes : ready.storeAllowed (ready.eaSth 4 8#16) := by decide
-- the last legal half word (V9)
theorem witness_Sth_last_half : ready.storeAllowed (ready.eaSth 0 0xFFFE#16) := by decide
theorem witness_SthuStoresUpdatesAndCompletes :
    ((4 : Reg) ≠ 0 ∨ ready.params.invalidForm = .snapshot) ∧ ready.storeAllowed (ready.eaSthu 4 8#16) := by decide
theorem witness_Sthu_snapshot :
    ((0 : Reg) ≠ 0 ∨ readySnapshot.params.invalidForm = .snapshot) ∧
    readySnapshot.storeAllowed (readySnapshot.eaSthu 0 8#16) := by decide
theorem witness_SthuxStoresUpdatesAndCompletes :
    ((4 : Reg) ≠ 0 ∨ ready.params.invalidForm = .snapshot) ∧ ready.storeAllowed (ready.eaSthux 4 5) := by decide
theorem witness_Sthux_snapshot :
    ((0 : Reg) ≠ 0 ∨ readySnapshot.params.invalidForm = .snapshot) ∧
    readySnapshot.storeAllowed (readySnapshot.eaSthux 0 5) := by decide
theorem witness_SthxStoresAndCompletes : ready.storeAllowed (ready.eaSthx 4 5) := by decide

/-- For CompletedInstructionFrame, FlagsAreNeitherReadNorWritten, OtherRegisterFilesAreNeitherReadNorWritten,
EveryInstructionGoesOnToTheNextWord, StoresEndTheReservationsTheyCover: each instruction completes somewhere. -/
theorem witness_exec_completes :
    ∀ i ∈ [Instr.sth 3 4 8#16, .sthu 3 4 8#16, .sthux 3 4 5 0#1, .sthx 3 4 5 0#1],
      (nextOf (exec i ready)).isSome = true := by decide
theorem witness_default_decode_of_x_forms :
    decodeWord false 0x7C642B2E#32 = .instr (.sthx 3 4 5 0#1) ∧
    decodeWord false 0x7C642B6E#32 = .instr (.sthux 3 4 5 0#1) := by decide
theorem witness_step_completes : (nextOf (step loaded)).isSome = true := by decide

/-- For PcIsAlignedAtFetchAndMayNotWrap, its second clause. -/
theorem witness_pc_wraps :
    let s := { ready with pc := 0xFFFFFFFC#32 }
    2 ^ 32 ≤ s.pc.toNat + 4 ∧ ¬ s.formStops (.sthu 3 4 8#16) ∧ s.storeAddress (.sthu 3 4 8#16) ≠ 0xFFFFFFFF#32 ∧
    s.admits (s.storeAddress (.sthu 3 4 8#16)) = true ∧ s.admits (s.storeAddress (.sthu 3 4 8#16) + 1#32) = true ∧
    s.isCode (s.storeAddress (.sthu 3 4 8#16)) = false ∧
    s.isCode (s.storeAddress (.sthu 3 4 8#16) + 1#32) = false := by decide

/-! For ChecksAreMadeInOrder, one state per clause; each meets the negations of the clauses before it. -/

theorem witness_check_form : ready.formStops (.sthu 3 0 8#16) ∧ ready.formStops (.sthux 3 0 5 0#1) := by decide
theorem witness_check_top : ¬ ready.formStops (.sth 3 0 0xFFFF#16) ∧ ready.params.eaTop = .fault ∧
    ready.storeAddress (.sth 3 0 0xFFFF#16) = 0xFFFFFFFF#32 := by decide
-- the first byte admitted, the second not (K1)
theorem witness_check_admitted :
    let s := withParams ready fun p => { p with memAdmit := [⟨0x1000, 9⟩] }
    ¬ s.formStops (.sth 3 4 8#16) ∧ ¬ (s.params.eaTop = .fault ∧ s.storeAddress (.sth 3 4 8#16) = 0xFFFFFFFF#32) ∧
    ¬ (s.admits (s.storeAddress (.sth 3 4 8#16)) = true ∧ s.admits (s.storeAddress (.sth 3 4 8#16) + 1#32) = true) := by
  decide
-- the first byte outside the region, the second in it (K4)
theorem witness_check_code :
    let s := withParams ready fun p => { p with codeRegion := [⟨0x1009, 3⟩] }
    ¬ s.formStops (.sth 3 4 8#16) ∧ ¬ (s.params.eaTop = .fault ∧ s.storeAddress (.sth 3 4 8#16) = 0xFFFFFFFF#32) ∧
    (s.admits (s.storeAddress (.sth 3 4 8#16)) = true ∧ s.admits (s.storeAddress (.sth 3 4 8#16) + 1#32) = true) ∧
    (s.isCode (s.storeAddress (.sth 3 4 8#16)) = true ∨ s.isCode (s.storeAddress (.sth 3 4 8#16) + 1#32) = true) := by
  decide
-- the last `pc` that completes, and the first that wraps
theorem witness_check_pc : { ready with pc := 0xFFFFFFF8#32 }.storeAllowed (ready.eaSth 4 8#16) ∧
    ¬ { ready with pc := 0xFFFFFFFC#32 }.storeAllowed (ready.eaSth 4 8#16) := by decide
theorem witness_check_decode :
    let s := State.reset.withFetchWord 32 0xB8640008
    s.pc.toNat % 4 = 0 ∧ s.textAt s.pc = true ∧ s.memRead4 s.pc = some 0xB8640008#32 ∧
    decodeWord s.params.rcIgnored 0xB8640008#32 = .notInScope 0xB8640008#32 := by decide

theorem witness_InvalidForm_policies : ready.params.invalidForm = .fault ∧
    readySnapshot.params.invalidForm = .snapshot ∧ readySnapshot.storeAllowed (readySnapshot.eaSthu 0 8#16) ∧
    readySnapshot.storeAllowed (readySnapshot.eaSthux 0 5) := by decide
theorem witness_StoreAtTheTop_fault : ready.storeAddress (.sth 3 0 0xFFFF#16) = 0xFFFFFFFF#32 ∧
    ¬ ready.formStops (.sth 3 0 0xFFFF#16) ∧ ready.params.eaTop = .fault := by decide
theorem witness_StoreAtTheTop_wrap : readyWrap.storeAddress (.sth 3 4 0#16) = 0xFFFFFFFF#32 ∧
    ¬ readyWrap.formStops (.sth 3 4 0#16) ∧ readyWrap.params.eaTop = .wrap ∧
    readyWrap.storeAllowed 0xFFFFFFFF#32 := by decide
theorem witness_UpdateWrites : (Instr.sthu 3 4 8#16).updatedReg = some 4 ∧
    (nextOf (exec (.sthu 3 4 8#16) ready)).isSome = true := by decide
-- V15 and V16
theorem witness_UpdateWrites_examples :
    (withRegs [(4, 0xFFFFFFFF00004000#64)]).x 4 = 0xFFFFFFFF00004000#64 ∧
    (nextOf (exec (.sthu 3 4 0#16) (withRegs [(4, 0xFFFFFFFF00004000#64)]))).isSome = true ∧
    (withRegs [(4, 0x2#64)]).x 4 = 0x2#64 ∧
    (nextOf (exec (.sthu 3 4 0xFFFC#16) (withRegs [(4, 0x2#64)]))).isSome = true := by decide
-- an odd and an even address
theorem witness_StoresNeedNoAlignment :
    (¬ ready.formStops (.sthx 3 4 5 0#1) ∧ ready.storeAllowed (ready.storeAddress (.sthx 3 4 5 0#1)) ∧
      (ready.storeAddress (.sthx 3 4 5 0#1)).toNat % 2 = 1) ∧
    (¬ ready.formStops (.sthu 3 4 8#16) ∧ ready.storeAllowed (ready.storeAddress (.sthu 3 4 8#16)) ∧
      (ready.storeAddress (.sthu 3 4 8#16)).toNat % 2 = 0) := by decide

/-! For StoresEndTheReservationsTheyCover and RunsOnlyEndReservations. -/

theorem witness_reservation_absent : ready.reservation = none ∧ (nextOf (exec (.sth 3 4 8#16) ready)).isSome = true := by
  decide
theorem witness_reservation_disabled :
    let s := withReservation ready false 128 0x1000#32
    s.reservation = some { enabled := false, granule := 128, live := [⟨1, 0x1000#32⟩] } ∧
    (nextOf (exec (.sth 3 4 8#16) s)).isSome = true := by decide
theorem witness_reservation_enabled_empty :
    let s := { ready with reservation := some { enabled := true, granule := 128, live := [] } }
    s.reservation = some { enabled := true, granule := 128, live := [] } ∧
    (nextOf (exec (.sth 3 4 8#16) s)).isSome = true := by decide
theorem witness_reservation_covered :
    let s := withReservation ready true 128 0x107F#32
    s.reservation = some { enabled := true, granule := 128, live := [⟨1, 0x107F#32⟩] } ∧
    0x107F / 128 = (s.storeAddress (.sth 3 4 8#16)).toNat / 128 ∧
    (nextOf (exec (.sth 3 4 8#16) s)).isSome = true := by decide
theorem witness_reservation_elsewhere :
    let s := withReservation ready true 128 0x1080#32
    0x1080 / 128 ≠ (s.storeAddress (.sth 3 4 8#16)).toNat / 128 ∧
    0x1080 / 128 ≠ (s.storeAddress (.sth 3 4 8#16) + 1#32).toNat / 128 ∧
    (nextOf (exec (.sth 3 4 8#16) s)).isSome = true := by decide

-- bytes on both sides of a half word at 0x2002
theorem witness_MixedWidthReads :
    let s := (State.reset.memWrite2 0x2000#32 0x1234#16).memWrite2 0x2004#32 0x5678#16
    s.readByte (0x2002#32 + 2#32) = some 0x56#8 ∧ s.readByte (0x2002#32 + 3#32) = some 0x78#8 ∧
    s.readByte (0x2002#32 - 2#32) = some 0x12#8 ∧ s.readByte (0x2002#32 - 1#32) = some 0x34#8 := by decide
/-- For RepeatedStoreChangesNothingMore and LaterStoreOverwritesEarlier. -/
theorem witness_two_stores : (Instr.sthx 3 4 5 0#1).updatedReg = none ∧
    ((nextOf (exec (.sthx 3 4 5 0#1) ready)).bind fun t => nextOf (exec (.sthx 3 4 5 0#1) t)).isSome = true ∧
    ((nextOf (exec (.sth 3 4 8#16) ready)).bind fun t => nextOf (exec (.sth 4 4 9#16) t)).isSome = true := by decide
theorem witness_UpdatedBaseFeeds :
    (nextOf (exec (.sthu 3 4 8#16) ready)).isSome = true ∧ (4 : Reg) ≠ 0 := by decide
theorem witness_StepRunsTheDecodedInstruction :
    loaded.pc.toNat % 4 = 0 ∧ loaded.isCode loaded.pc = true ∧ loaded.isCode (loaded.pc + 1#32) = true ∧
    loaded.isCode (loaded.pc + 2#32) = true ∧ loaded.isCode (loaded.pc + 3#32) = true ∧
    loaded.readByte loaded.pc = some 0xB0#8 ∧ loaded.readByte (loaded.pc + 1#32) = some 0x64#8 ∧
    loaded.readByte (loaded.pc + 2#32) = some 0x00#8 ∧ loaded.readByte (loaded.pc + 3#32) = some 0x08#8 ∧
    decodeWord loaded.params.rcIgnored (0xB0#8 ++ 0x64#8 ++ 0x00#8 ++ 0x08#8) = .instr (.sth 3 4 8#16) := by decide
theorem witness_LoadedWord : State.reset.pc.toNat % 4 = 0 ∧ 0xB0640008 < 2 ^ 32 ∧
    decodeWord State.reset.params.rcIgnored (BitVec.ofNat 32 0xB0640008) = .instr (.sth 3 4 8#16) ∧
    State.reset.params.rcIgnored = false := by decide
theorem witness_StepKeepsTheInvariant : loaded.inv ∧ (nextOf (step loaded)).isSome = true := by decide
/-- For the statements over runs: a run of one step that completes, with a code byte and a byte outside `MEM_ADMIT`. -/
theorem witness_run : (nextOf (Host.Core.run Sys2Proof.core 1 loaded)).isSome = true ∧
    loaded.isCode 0x10000#32 = true ∧ loaded.admits 0x2000#32 = false := by decide
theorem witness_run_with_reservation :
    let s := withReservation loaded true 128 0x1000#32
    s.reservation = some { enabled := true, granule := 128, live := [⟨1, 0x1000#32⟩] } ∧
    (nextOf (Host.Core.run Sys2Proof.core 1 s)).isSome = true := by decide
theorem witness_LoadedProgramSteps : loaded.programLoaded 0x10000 1 ∧ 0x10000 ≤ loaded.pc.toNat ∧
    loaded.pc.toNat < 0x10000 + 4 * 1 ∧ loaded.pc.toNat % 4 = 0 := by
  refine ⟨⟨by decide, by decide, by decide, ?_, ?_⟩, by decide, by decide, by decide⟩
  · intro k hk
    obtain rfl : k = 0 := by omega
    exact ⟨.sth 3 4 8#16, by decide⟩
  · intro a ha
    have hadmit : loaded.params.memAdmit = [⟨0x1000, 0x100⟩] := by decide
    have hcode : loaded.params.codeRegion = [⟨0x10000, 4⟩] := by decide
    simp only [State.admits, State.isCode, inRegions, regionHolds, hadmit, hcode, List.any_cons, List.any_nil,
      Bool.or_false, Bool.and_eq_true, decide_eq_true_eq] at ha ⊢
    simp
    omega

end Sys2Proof.Tests
end

section
/-! PROOFS for 10_state.md: the registers, the frame of a completed instruction, the reservation table, and what every
step and every run keeps. -/

namespace Sys2Proof.Machine

/-! ## Steps and runs through `afterStore` -/

/-- A completed step is the completed store of the instruction it fetched. -/
theorem step_next_afterStore (s t : State) (h : step s = .next t) :
    ∃ i, s.fetch s.pc = .instr i ∧ s.storeAllowed (s.storeAddress i) ∧ t = s.afterStore i := by
  obtain ⟨i, hfetch, hexec⟩ := (step_next s t).mp h
  obtain ⟨-, hallowed, ht⟩ := (exec_next i s t).mp hexec
  exact ⟨i, hfetch, hallowed, ht⟩

/-- A preorder that every completed store respects holds of the two ends of a run. -/
theorem run_rel_of_afterStore (R : State → State → Prop) (hrefl : ∀ s, R s s)
    (htrans : ∀ s t u, R s t → R t u → R s u) (hstore : ∀ s i, R s (s.afterStore i)) (k : Nat) (s u : State)
    (h : Host.Core.run Sys2Proof.core k s = .next u) : R s u := by
  refine run_rel R hrefl (fun s t u hst htu => ?_) k s u h
  obtain ⟨i, -, -, rfl⟩ := step_next_afterStore s t hst
  exact htrans _ _ _ (hstore s i) htu

/-! ## The reservation table (rule R28, decision D15) -/

/-- From `s` to `t` an absent table stays absent, and a present one changes at most by losing live reservations. -/
def ReservationsOnlyEnd (s t : State) : Prop :=
  (s.reservation = none → t.reservation = none) ∧
  ∀ tab, s.reservation = some tab → ∃ left, t.reservation = some { tab with live := left } ∧ left.Sublist tab.live

theorem ReservationsOnlyEnd.refl (s : State) : ReservationsOnlyEnd s s :=
  ⟨id, fun tab h => ⟨tab.live, h, List.Sublist.refl _⟩⟩

theorem ReservationsOnlyEnd.trans (s t u : State) (hst : ReservationsOnlyEnd s t) (htu : ReservationsOnlyEnd t u) :
    ReservationsOnlyEnd s u := by
  refine ⟨fun h => htu.1 (hst.1 h), fun tab h => ?_⟩
  obtain ⟨mid, hmid, hsub⟩ := hst.2 tab h
  obtain ⟨left, hleft, hsub'⟩ := htu.2 _ hmid
  exact ⟨left, hleft, hsub'.trans hsub⟩

/-- What a completed store leaves of an enabled table: the live reservations that survive it. -/
theorem State.afterStore_reservation_enabled (s : State) (i : Instr) (tab : ReservationTable)
    (h : s.reservation = some tab) (hen : tab.enabled = true) :
    (s.afterStore i).reservation =
      some { tab with live := tab.live.filter fun r => r.survives tab.granule s.draws (s.storeAddress i) } := by
  simp [State.resInvalidate_reservation, h, hen]

/-- A completed store leaves a disabled table, and one with no live reservation, as it is. -/
theorem State.afterStore_reservation_inactive (s : State) (i : Instr) (tab : ReservationTable)
    (h : s.reservation = some tab) (hin : tab.enabled = false ∨ tab.live = []) :
    (s.afterStore i).reservation = some tab := by
  obtain ⟨enabled, granule, live⟩ := tab
  rcases hin with rfl | rfl <;> simp [State.resInvalidate_reservation, h]

theorem reservationsOnlyEnd_afterStore (s : State) (i : Instr) : ReservationsOnlyEnd s (s.afterStore i) := by
  refine ⟨fun h => by simp [State.resInvalidate_reservation, h], fun tab h => ?_⟩
  rcases Bool.eq_false_or_eq_true tab.enabled with hen | hen
  · exact ⟨_, s.afterStore_reservation_enabled i tab h hen, List.filter_sublist⟩
  · exact ⟨tab.live, s.afterStore_reservation_inactive i tab h (.inl hen), List.Sublist.refl _⟩

theorem Reservation.granule_ne_of_survives (r : Reservation) (g draw : Nat) (ea : Addr)
    (h : r.survives g draw ea = true) : r.address.toNat / g ≠ ea.toNat / g := by
  simp only [Reservation.survives_eq, Bool.and_eq_true, Bool.not_eq_true'] at h
  obtain ⟨hcov, -⟩ := h
  simpa [Reservation.covers, granuleOf] using hcov

theorem Reservation.survives_of_granule_ne (r : Reservation) (g draw : Nat) (ea : Addr)
    (h : r.address.toNat / g ≠ ea.toNat / g) (h' : r.address.toNat / g ≠ (ea + 1#32).toNat / g) :
    r.survives g draw ea = true := by
  have hcov : r.covers g ea = false := by simpa [Reservation.covers, granuleOf] using h
  have hcov' : r.covers g (ea + 1#32) = false := by
    simpa only [Reservation.covers, granuleOf, beq_eq_false_iff_ne] using h'
  simp [Reservation.survives_eq, hcov, hcov']

/-- Settles O33: a completed store only ends reservations, and that is a preorder. -/
theorem runsOnlyEndReservations : Obligations.RunsOnlyEndReservations :=
  run_rel_of_afterStore ReservationsOnlyEnd ReservationsOnlyEnd.refl ReservationsOnlyEnd.trans
    reservationsOnlyEnd_afterStore

/-- Settles O32: the live reservations left are those that survive the store, a filter of the table's. -/
theorem storesEndTheReservationsTheyCover : Obligations.StoresEndTheReservationsTheyCover := by
  intro i s t h
  obtain ⟨-, -, rfl⟩ := (exec_next i s t).mp h
  refine ⟨(reservationsOnlyEnd_afterStore s i).1, s.afterStore_reservation_inactive i, fun tab htab hen => ?_⟩
  refine ⟨_, s.afterStore_reservation_enabled i tab htab hen, List.filter_sublist, fun r hr => ?_,
    fun r hr hne hne' => ?_⟩
  · exact r.granule_ne_of_survives _ _ _ (List.mem_filter.mp hr).2
  · exact List.mem_filter.mpr ⟨hr, r.survives_of_granule_ne _ _ _ hne hne'⟩

/-! ## The invariant (log entries 7, 10, 20) -/

theorem State.wf_afterStore (s : State) (i : Instr) (h : Memory.wf s.mem = true) :
    Memory.wf (s.afterStore i).mem = true := by
  rw [State.afterStore_mem]
  exact State.wf_storeHalf _ _ _ h

theorem addr_add_four_mod_four (a : Addr) (h : a.toNat % 4 = 0) : (a + 4#32).toNat % 4 = 0 := by
  rw [BitVec.toNat_add, BitVec.toNat_ofNat]
  omega

/-- The granule of a table, which a store never changes, stays positive. -/
theorem ReservationsOnlyEnd.granule_pos {s t : State} (h : ReservationsOnlyEnd s t)
    (hs : (s.reservation.all fun tab => decide (0 < tab.granule)) = true) :
    (t.reservation.all fun tab => decide (0 < tab.granule)) = true := by
  cases hres : s.reservation with
  | none => simp [h.1 hres]
  | some tab =>
    obtain ⟨left, hleft, -⟩ := h.2 tab hres
    simpa [hres, hleft] using hs

/-- Settles O40: a completed step is a completed store, which keeps each part of the invariant. -/
theorem stepKeepsTheInvariant : Obligations.StepKeepsTheInvariant := by
  rintro s t ⟨hmem, hpc, hgranule⟩ h
  obtain ⟨i, -, -, rfl⟩ := step_next_afterStore s t h
  refine ⟨s.wf_afterStore i hmem, ?_, (reservationsOnlyEnd_afterStore s i).granule_pos hgranule⟩
  rw [State.afterStore_pc]
  exact addr_add_four_mod_four s.pc hpc

/-! ## The frame (rules R24, R25, R27, R33) -/

theorem OtherStateSame.refl (s : State) : OtherStateSame s s := ⟨rfl, rfl, rfl, rfl, rfl⟩

theorem OtherStateSame.trans (s t u : State) (hst : OtherStateSame s t) (htu : OtherStateSame t u) :
    OtherStateSame s u := by
  obtain ⟨hcr, hxer, hfpr, hvr, hparams⟩ := hst
  obtain ⟨hcr', hxer', hfpr', hvr', hparams'⟩ := htu
  exact ⟨hcr'.trans hcr, hxer'.trans hxer, hfpr'.trans hfpr, hvr'.trans hvr, hparams'.trans hparams⟩

theorem otherStateSame_afterStore (s : State) (i : Instr) : OtherStateSame s (s.afterStore i) := by
  simp [OtherStateSame]

theorem State.readByte_afterStore_of_ne (s : State) (i : Instr) (a : Addr) (h : a ≠ s.storeAddress i)
    (h' : a ≠ s.storeAddress i + 1#32) : (s.afterStore i).readByte a = s.readByte a := by
  rw [State.readByte_afterStore, if_neg h', if_neg h]

theorem State.x_afterStore_of_ne (s : State) (i : Instr) (q : Reg) (h : i.updatedReg ≠ some q) :
    (s.afterStore i).x q = s.x q := by
  rw [State.x_afterStore, if_neg h]

/-- Settles O43: a completed store leaves the four register files, and being left alone is a preorder. -/
theorem runsLeaveTheOtherRegistersAlone : Obligations.RunsLeaveTheOtherRegistersAlone := by
  intro k s t h
  obtain ⟨hcr, hxer, hfpr, hvr, -⟩ := run_rel_of_afterStore OtherStateSame OtherStateSame.refl OtherStateSame.trans
    otherStateSame_afterStore k s t h
  exact ⟨hcr, hxer, hfpr, hvr⟩

/-- Settles O22: each clause is the frame of `afterStore` for one part of the state. -/
theorem completedInstructionFrame : Obligations.CompletedInstructionFrame := by
  intro i s t h
  obtain ⟨-, -, rfl⟩ := (exec_next i s t).mp h
  obtain ⟨hcr, hxer, hfpr, hvr, hparams⟩ := otherStateSame_afterStore s i
  exact ⟨s.readByte_afterStore_of_ne i, s.x_afterStore_of_ne i, hcr, hxer, hfpr, hvr, hparams,
    (reservationsOnlyEnd_afterStore s i).1⟩

/-! ## State that no instruction reads (rule R27) -/

theorem State.checkStore_congr (s t : State) (ea : Addr) (hparams : t.params = s.params) (hpc : t.pc = s.pc) :
    t.checkStore ea = s.checkStore ea := by
  cases s
  cases t
  cases hparams
  cases hpc
  rfl

/-- An update of the state that touches neither the parameters nor `pc` nor the effective address, and that may be made
before or after the completed store, may be made before or after the instruction, whatever its outcome. -/
theorem exec_update_comm (f : State → State) (i : Instr) (s : State) (hparams : (f s).params = s.params)
    (hpc : (f s).pc = s.pc) (hea : (f s).storeAddress i = s.storeAddress i)
    (hafter : (f s).afterStore i = f (s.afterStore i)) : exec i (f s) = mapNext f (exec i s) := by
  simp only [exec_eq, State.formStops, hparams, hpc, hea, hafter, State.checkStore_congr s (f s) _ hparams hpc]
  split
  · rfl
  · rcases s.checkStore (s.storeAddress i) with _ | (_ | _) <;> rfl

/-- The state with other contents of the floating-point and the vector registers. -/
def State.withFprVr (f v : RegFile) (s : State) : State := { s with fpr := f, vr := v }

theorem State.resInvalidate_withFprVr (f v : RegFile) (s : State) (ea : Addr) :
    (s.withFprVr f v).resInvalidate ea = (s.resInvalidate ea).withFprVr f v := by
  unfold State.resInvalidate
  simp only [State.withFprVr]
  split
  · rfl
  · split <;> rfl

theorem State.storeAddress_withFprVr (f v : RegFile) (s : State) (i : Instr) :
    (s.withFprVr f v).storeAddress i = s.storeAddress i := by
  cases i <;> rfl

theorem State.afterStore_withFprVr (f v : RegFile) (s : State) (i : Instr) :
    (s.withFprVr f v).afterStore i = (s.afterStore i).withFprVr f v := by
  have hstored (ea : Addr) (h : Half) : (s.withFprVr f v).storeHalf ea h = (s.storeHalf ea h).withFprVr f v := by
    rw [State.storeHalf, State.resInvalidate_withFprVr]
    rfl
  have hvalue : (s.withFprVr f v).storeValue i = s.storeValue i := rfl
  simp only [State.afterStore, State.storeAddress_withFprVr, hvalue, hstored]
  cases i.updatedReg <;> rfl

/-- Settles O24: replacing the two files commutes with the completed store, and no check looks at them. -/
theorem otherRegisterFilesAreNeitherReadNorWritten : Obligations.OtherRegisterFilesAreNeitherReadNorWritten := by
  refine ⟨fun i s t h => ?_, fun i s f v => ?_⟩
  · obtain ⟨-, -, -, -, hfpr, hvr, -⟩ := completedInstructionFrame i s t h
    exact ⟨hfpr, hvr⟩
  · exact exec_update_comm (State.withFprVr f v) i s rfl rfl (s.storeAddress_withFprVr f v i)
      (s.afterStore_withFprVr f v i)

/-! ## The general registers (rule R20) -/

/-- Settles O12, by the one rule for a read after a write. -/
theorem registersHoldWhatWasLastWritten : Obligations.RegistersHoldWhatWasLastWritten :=
  fun s r q v => ⟨by rw [State.x_setX, if_pos rfl], fun h => by rw [State.x_setX, if_neg h]⟩

end Sys2Proof.Machine
end

section
/-! PROOFS for 20_memory.md: effective addresses, which register bits reach memory, stores at any alignment, and what
reads of other widths see of a stored half word. -/

namespace Sys2Proof.Machine

/-! ## Effective addresses (rules R40, R101) -/

theorem effectiveAddress_eq_setWidth_add (base offset : Dword) :
    effectiveAddress base offset = (base + offset).setWidth 32 :=
  (BitVec.setWidth_eq_extractLsb' (by decide)).symm

/-- The truncated 64-bit sum is the 32-bit sum of the low words (rule R113 (c)). -/
theorem effectiveAddress_eq_add_setWidth (base offset : Dword) :
    effectiveAddress base offset = base.setWidth 32 + offset.setWidth 32 := by
  rw [effectiveAddress_eq_setWidth_add, BitVec.setWidth_add _ _ (by decide)]

/-- The low half word of a register is that of its low 32 bits (rule R103). -/
theorem trunc16_eq_setWidth_setWidth (v : Dword) : trunc16 v = (v.setWidth 32).setWidth 16 := by
  rw [trunc16, BitVec.setWidth_setWidth_of_le _ (by decide), BitVec.setWidth_eq_extractLsb' (by decide)]

/-- Settles O15: each row is the address function of its instruction. -/
theorem effectiveAddressesFollowTheTable : Obligations.EffectiveAddressesFollowTheTable :=
  ⟨fun _ _ _ _ => effectiveAddress_eq_setWidth_add _ _, fun _ _ _ _ => effectiveAddress_eq_setWidth_add _ _,
    fun _ _ _ _ _ => effectiveAddress_eq_setWidth_add _ _, fun _ _ _ _ _ => effectiveAddress_eq_setWidth_add _ _⟩

/-! ## The low 32 bits of the registers (rules R40, R47, R103) -/

/-- Every register of `t` has the low 32 bits it has in `s`. -/
def SameLowRegisters (s t : State) : Prop := ∀ r : Reg, (t.x r).setWidth 32 = (s.x r).setWidth 32

theorem SameLowRegisters.base0 {s t : State} (h : SameLowRegisters s t) (ra : Reg) :
    (t.base0 ra).setWidth 32 = (s.base0 ra).setWidth 32 := by
  unfold State.base0
  split
  · rfl
  · exact h ra

theorem SameLowRegisters.storeAddress {s t : State} (h : SameLowRegisters s t) (i : Instr) :
    t.storeAddress i = s.storeAddress i := by
  cases i with
  | sth rs ra d => simp only [State.storeAddress, State.eaSth, effectiveAddress_eq_add_setWidth, h.base0 ra]
  | sthu rs ra d => simp only [State.storeAddress, State.eaSthu, effectiveAddress_eq_add_setWidth, h ra]
  | sthux rs ra rb rc => simp only [State.storeAddress, State.eaSthux, effectiveAddress_eq_add_setWidth, h ra, h rb]
  | sthx rs ra rb rc =>
    simp only [State.storeAddress, State.eaSthx, effectiveAddress_eq_add_setWidth, h.base0 ra, h rb]

theorem SameLowRegisters.storeValue {s t : State} (h : SameLowRegisters s t) (i : Instr) :
    t.storeValue i = s.storeValue i := by
  simp only [State.storeValue, State.storedHalf, trunc16_eq_setWidth_setWidth, h i.sourceReg]

/-- Settles O14: the registers are read for the address and the value alone, and both are the same. -/
theorem highRegisterBitsDoNotReachMemory : Obligations.HighRegisterBitsDoNotReachMemory := by
  intro i s t g hg h
  obtain ⟨hform, hallowed, rfl⟩ := (exec_next i s t).mp h
  have hlow : SameLowRegisters s { s with gpr := g } := hg
  have hea := hlow.storeAddress i
  refine ⟨State.afterStore { s with gpr := g } i, (exec_next _ _ _).mpr ⟨hform, hea ▸ hallowed, rfl⟩, ?_, ?_, ?_⟩
  · simp [hea, hlow.storeValue i]
  · simp
  · simp [hea, State.resInvalidate_reservation]

/-! ## The two bytes of a stored half word (rules R41, R44, R45) -/

theorem highByte_append_lowByte (v : Half) : highByte v ++ lowByte v = v :=
  BitVec.extractLsb'_append_extractLsb'_eq_extractLsb' (by decide) |>.trans BitVec.extractLsb'_eq_self

/-- A state in which every byte reads as after `memWrite2` holds the half word there and is else the same. -/
theorem halfStoredAt_of_readByte {s t : State} {a : Addr} {v : Half}
    (h : ∀ c, t.readByte c =
      if c = a + 1#32 then some (lowByte v) else if c = a then some (highByte v) else s.readByte c) :
    HalfStoredAt s t a v := by
  refine ⟨?_, ?_, fun c hc hc' => ?_⟩
  · rw [h, if_neg (addr_ne_add_one a), if_pos rfl, highByte]
  · rw [h, if_pos rfl, lowByte]
  · rw [h, if_neg hc', if_neg hc]

/-- Settles O31: no check of `exec_next` looks at the address's alignment. -/
theorem storesNeedNoAlignment : Obligations.StoresNeedNoAlignment :=
  fun i s hform hallowed =>
    ⟨s.afterStore i, (exec_next i s _).mpr ⟨hform, hallowed, rfl⟩, halfStoredAt_of_readByte (s.readByte_afterStore i)⟩

/-! ## Reads of other widths and places (rule R43; log entry 26) -/

theorem State.memRead2_of_bytes {s : State} {a : Addr} {b0 b1 : Byte} (h0 : s.readByte a = some b0)
    (h1 : s.readByte (a + 1#32) = some b1) : s.memRead2 a = some (b0 ++ b1) := by
  simp [State.memRead2, h0, h1]

theorem State.memRead4_of_bytes {s : State} {a : Addr} {b0 b1 b2 b3 : Byte} (h0 : s.readByte a = some b0)
    (h1 : s.readByte (a + 1#32) = some b1) (h2 : s.readByte (a + 2#32) = some b2)
    (h3 : s.readByte (a + 3#32) = some b3) : s.memRead4 a = some (wordOfBytes b0 b1 b2 b3) := by
  simp [State.memRead4, h0, h1, h2, h3]

/-- A half word as the more significant half of a word. -/
theorem wordOfBytes_half_first (v : Half) (b2 b3 : Byte) :
    wordOfBytes (highByte v) (lowByte v) b2 b3 = v ++ b2 ++ b3 := by
  rw [wordOfBytes, highByte_append_lowByte]

/-- A half word as the less significant half of a word. -/
theorem wordOfBytes_half_last (b0 b1 : Byte) (v : Half) :
    wordOfBytes b0 b1 (highByte v) (lowByte v) = b0 ++ b1 ++ v := by
  rw [wordOfBytes, BitVec.append_assoc, BitVec.cast_eq, highByte_append_lowByte]

section
variable {s t : State} {a : Addr} {v : Half}

theorem HalfStoredAt.memRead2 (h : HalfStoredAt s t a v) : t.memRead2 a = some v := by
  obtain ⟨hhigh, hlow, -⟩ := h
  rw [State.memRead2_of_bytes hhigh hlow]
  exact congrArg some (highByte_append_lowByte v)

theorem HalfStoredAt.memRead2_next (h : HalfStoredAt s t a v) {b2 : Byte} (h2 : s.readByte (a + 2#32) = some b2) :
    t.memRead2 (a + 1#32) = some (v.extractLsb' 0 8 ++ b2) := by
  obtain ⟨-, hlow, hframe⟩ := h
  have haddr : a + 1#32 + 1#32 = a + 2#32 := by bv_omega
  have hbyte := (hframe (a + 2#32) (by bv_omega) (by bv_omega)).trans h2
  exact State.memRead2_of_bytes hlow (haddr ▸ hbyte)

theorem HalfStoredAt.memRead4 (h : HalfStoredAt s t a v) {b2 b3 : Byte} (h2 : s.readByte (a + 2#32) = some b2)
    (h3 : s.readByte (a + 3#32) = some b3) : t.memRead4 a = some (v ++ b2 ++ b3) := by
  obtain ⟨hhigh, hlow, hframe⟩ := h
  have hbyte2 := (hframe (a + 2#32) (by bv_omega) (by bv_omega)).trans h2
  have hbyte3 := (hframe (a + 3#32) (by bv_omega) (by bv_omega)).trans h3
  rw [State.memRead4_of_bytes hhigh hlow hbyte2 hbyte3]
  exact congrArg some (wordOfBytes_half_first v b2 b3)

theorem HalfStoredAt.memRead4_before (h : HalfStoredAt s t a v) {b0 b1 : Byte}
    (h0 : s.readByte (a - 2#32) = some b0) (h1 : s.readByte (a - 1#32) = some b1) :
    t.memRead4 (a - 2#32) = some (b0 ++ b1 ++ v) := by
  obtain ⟨hhigh, hlow, hframe⟩ := h
  have hbyte0 := (hframe (a - 2#32) (by bv_omega) (by bv_omega)).trans h0
  have hbyte1 := (hframe (a - 1#32) (by bv_omega) (by bv_omega)).trans h1
  have haddr1 : a - 1#32 = a - 2#32 + 1#32 := by bv_omega
  have haddr2 : a - 2#32 + 2#32 = a := by bv_omega
  have haddr3 : a - 2#32 + 3#32 = a + 1#32 := by bv_omega
  rw [State.memRead4_of_bytes hbyte0 (haddr1 ▸ hbyte1) (by rwa [haddr2]) (by rwa [haddr3])]
  exact congrArg some (wordOfBytes_half_last b0 b1 v)

end

/-- Settles O34: each read follows from the half word standing at `a` and the other bytes being as before. -/
theorem mixedWidthReadsSeeTheStoredHalf : Obligations.MixedWidthReadsSeeTheStoredHalf := by
  intro s a v
  have h : HalfStoredAt s (s.memWrite2 a v) a v := halfStoredAt_of_readByte fun c => s.readByte_memWrite2 a c v
  exact ⟨h, h.memRead2, fun _ _ => h.memRead4, fun _ _ => h.memRead4_before, fun _ => h.memRead2_next⟩

end Sys2Proof.Machine
end

section
/-! PROOFS for 30_encoding.md: the fields of a word, the encoder and the decoder said through them, and the rows of
rule R74's table. After them, the base operand of `sth` and `sthx` (rule R78). -/

namespace Sys2Proof

/-! ## A word as its fields (rules R72, R73) -/

/-- The word with the given `OPCD`, `RS`, `RA` and low half, which is `d` of form `D` or the last three fields of
form `X`. -/
def formWord (opcd : BitVec 6) (rs ra : Reg) (low : Half) : Word :=
  opcd ++ BitVec.ofFin (w := 5) rs ++ BitVec.ofFin (w := 5) ra ++ low

/-- The low half of a form `X` word: `RB`, `XO`, `Rc`. -/
def xLow (rb : Reg) (xo : BitVec 10) (rc : BitVec 1) : Half := BitVec.ofFin (w := 5) rb ++ xo ++ rc

section
variable (opcd : BitVec 6) (rs ra rb : Reg) (low : Half) (xo : BitVec 10) (rc : BitVec 1) (w : Word)

@[simp] theorem opcdField_formWord : opcdField (formWord opcd rs ra low) = opcd :=
  (BitVec.extractLsb'_append_eq_of_le (by decide)).trans
    ((BitVec.extractLsb'_append_eq_of_le (by decide)).trans BitVec.extractLsb'_append_eq_left)

@[simp] theorem rsField_formWord : rsField (formWord opcd rs ra low) = rs :=
  congrArg BitVec.toFin ((BitVec.extractLsb'_append_eq_of_le (by decide)).trans
    ((BitVec.extractLsb'_append_eq_of_le (by decide)).trans BitVec.extractLsb'_append_eq_right))

@[simp] theorem raField_formWord : raField (formWord opcd rs ra low) = ra :=
  congrArg BitVec.toFin
    ((BitVec.extractLsb'_append_eq_of_le (by decide)).trans BitVec.extractLsb'_append_eq_right)

@[simp] theorem dField_formWord : dField (formWord opcd rs ra low) = low :=
  BitVec.extractLsb'_append_eq_right

@[simp] theorem rbField_formWord : rbField (formWord opcd rs ra (xLow rb xo rc)) = rb :=
  congrArg BitVec.toFin ((BitVec.extractLsb'_append_eq_of_add_le (by decide)).trans
    ((BitVec.extractLsb'_append_eq_of_le (by decide)).trans BitVec.extractLsb'_append_eq_left))

@[simp] theorem xoField_formWord : xoField (formWord opcd rs ra (xLow rb xo rc)) = xo :=
  (BitVec.extractLsb'_append_eq_of_add_le (by decide)).trans
    ((BitVec.extractLsb'_append_eq_of_le (by decide)).trans BitVec.extractLsb'_append_eq_right)

@[simp] theorem rcField_formWord : rcField (formWord opcd rs ra (xLow rb xo rc)) = rc :=
  (BitVec.extractLsb'_append_eq_of_add_le (by decide)).trans BitVec.extractLsb'_append_eq_right

theorem formWord_fields : formWord (opcdField w) (rsField w) (raField w) (dField w) = w := by
  change w.extractLsb' 26 6 ++ w.extractLsb' 21 5 ++ w.extractLsb' 16 5 ++ w.extractLsb' 0 16 = w
  rw [BitVec.extractLsb'_append_extractLsb'_eq_extractLsb' (by decide : 26 = 21 + 5),
    BitVec.extractLsb'_append_extractLsb'_eq_extractLsb' (by decide : 21 = 16 + 5),
    BitVec.extractLsb'_append_extractLsb'_eq_extractLsb' (by decide : 16 = 0 + 16)]
  exact BitVec.extractLsb'_eq_self

theorem xLow_fields : xLow (rbField w) (xoField w) (rcField w) = dField w := by
  change w.extractLsb' 11 5 ++ w.extractLsb' 1 10 ++ w.extractLsb' 0 1 = w.extractLsb' 0 16
  rw [BitVec.extractLsb'_append_extractLsb'_eq_extractLsb' (by decide : 11 = 1 + 10),
    BitVec.extractLsb'_append_extractLsb'_eq_extractLsb' (by decide : 1 = 0 + 1)]

theorem formWord_eq_shifts :
    formWord opcd rs ra low = opcd.setWidth 32 <<< 26 ||| regBits rs <<< 21 ||| regBits ra <<< 16 ||| low.setWidth 32 :=
  (BitVec.setWidth_eq _).symm.trans BitVec.setWidth_append_append_append_eq_shiftLeft_setWidth_or

theorem setWidth_xLow :
    (xLow rb xo rc).setWidth 32 = regBits rb <<< 11 ||| xo.setWidth 32 <<< 1 ||| rc.setWidth 32 :=
  BitVec.setWidth_append_append_eq_shiftLeft_setWidth_or

end

/-! ## The encoder (rule R75) -/

theorem encode_sth (rs ra : Reg) (d : Disp) : encode (.sth rs ra d) = formWord 44#6 rs ra d :=
  (formWord_eq_shifts 44#6 rs ra d).symm

theorem encode_sthu (rs ra : Reg) (d : Disp) : encode (.sthu rs ra d) = formWord 45#6 rs ra d :=
  (formWord_eq_shifts 45#6 rs ra d).symm

/-- Rule R75's formula of form `X`, whose opcode word holds both `OPCD` and `XO`. -/
theorem formWord_xLow_eq_shifts (opcd : BitVec 6) (xo : BitVec 10) (rs ra rb : Reg) (rc : BitVec 1) :
    formWord opcd rs ra (xLow rb xo rc) = (opcd.setWidth 32 <<< 26 ||| xo.setWidth 32 <<< 1) ||| regBits rs <<< 21 |||
      regBits ra <<< 16 ||| regBits rb <<< 11 ||| rc.setWidth 32 := by
  rw [formWord_eq_shifts, setWidth_xLow]
  generalize opcd.setWidth 32 <<< 26 = o, regBits rs <<< 21 = s, regBits ra <<< 16 = a, regBits rb <<< 11 = t,
    xo.setWidth 32 <<< 1 = x, rc.setWidth 32 = c
  ac_rfl

theorem encode_sthux (rs ra rb : Reg) (rc : BitVec 1) :
    encode (.sthux rs ra rb rc) = formWord 31#6 rs ra (xLow rb 439#10 rc) :=
  (formWord_xLow_eq_shifts 31#6 439#10 rs ra rb rc).symm

theorem encode_sthx (rs ra rb : Reg) (rc : BitVec 1) :
    encode (.sthx rs ra rb rc) = formWord 31#6 rs ra (xLow rb 407#10 rc) :=
  (formWord_xLow_eq_shifts 31#6 407#10 rs ra rb rc).symm

/-- The word has the instruction's opcode fields, and its operands in the fields of its form (rules R72 to R74). -/
def Instr.HasFields (w : Word) : Instr → Prop
  | .sth rs ra d => opcdField w = 44#6 ∧ rsField w = rs ∧ raField w = ra ∧ dField w = d
  | .sthu rs ra d => opcdField w = 45#6 ∧ rsField w = rs ∧ raField w = ra ∧ dField w = d
  | .sthux rs ra rb rc =>
    opcdField w = 31#6 ∧ rsField w = rs ∧ raField w = ra ∧ rbField w = rb ∧ xoField w = 439#10 ∧ rcField w = rc
  | .sthx rs ra rb rc =>
    opcdField w = 31#6 ∧ rsField w = rs ∧ raField w = ra ∧ rbField w = rb ∧ xoField w = 407#10 ∧ rcField w = rc

theorem Instr.hasFields_encode (i : Instr) : i.HasFields (encode i) := by
  cases i with
  | sth rs ra d => simp [Instr.HasFields, encode_sth]
  | sthu rs ra d => simp [Instr.HasFields, encode_sthu]
  | sthux rs ra rb rc => simp [Instr.HasFields, encode_sthux]
  | sthx rs ra rb rc => simp [Instr.HasFields, encode_sthx]

/-- The fields of an instruction fill its word: no bit is left over. -/
theorem Instr.HasFields.encode_eq {i : Instr} {w : Word} (h : i.HasFields w) : encode i = w := by
  cases i with
  | sth rs ra d =>
    obtain ⟨hopcd, rfl, rfl, rfl⟩ := h
    rw [encode_sth, ← hopcd, formWord_fields]
  | sthu rs ra d =>
    obtain ⟨hopcd, rfl, rfl, rfl⟩ := h
    rw [encode_sthu, ← hopcd, formWord_fields]
  | sthux rs ra rb rc =>
    obtain ⟨hopcd, rfl, rfl, rfl, hxo, rfl⟩ := h
    rw [encode_sthux, ← hopcd, ← hxo, xLow_fields, formWord_fields]
  | sthx rs ra rb rc =>
    obtain ⟨hopcd, rfl, rfl, rfl, hxo, rfl⟩ := h
    rw [encode_sthx, ← hopcd, ← hxo, xLow_fields, formWord_fields]

/-! ## The decoder (rule R85) -/

/-- The decoder answers the one instruction whose fields the word has, if `Rc` is legal in it. -/
theorem decodeWord_eq_instr_iff (b : Bool) (w : Word) (i : Instr) :
    decodeWord b w = .instr i ↔ i.HasFields w ∧ i.wellFormed b = true := by
  constructor
  · intro h
    obtain ⟨hopcd, rfl⟩ | ⟨hopcd, rfl⟩ | ⟨hopcd, hxo, hrc, rfl⟩ | ⟨hopcd, hxo, hrc, rfl⟩ := decodeWord_instr b w i h
    · exact ⟨⟨hopcd, rfl, rfl, rfl⟩, rfl⟩
    · exact ⟨⟨hopcd, rfl, rfl, rfl⟩, rfl⟩
    · exact ⟨⟨hopcd, rfl, rfl, rfl, hxo, rfl⟩, hrc⟩
    · exact ⟨⟨hopcd, rfl, rfl, rfl, hxo, rfl⟩, hrc⟩
  · rintro ⟨hfields, hwf⟩
    cases i with
    | sth rs ra d =>
      obtain ⟨hopcd, rfl, rfl, rfl⟩ := hfields
      simp [decodeWord, hopcd]
    | sthu rs ra d =>
      obtain ⟨hopcd, rfl, rfl, rfl⟩ := hfields
      simp [decodeWord, hopcd]
    | sthux rs ra rb rc =>
      obtain ⟨hopcd, rfl, rfl, rfl, hxo, rfl⟩ := hfields
      have hrc : rcLegal b (rcField w) = true := hwf
      simp [decodeWord, hopcd, hxo, hrc]
    | sthx rs ra rb rc =>
      obtain ⟨hopcd, rfl, rfl, rfl, hxo, rfl⟩ := hfields
      have hrc : rcLegal b (rcField w) = true := hwf
      simp [decodeWord, hopcd, hxo, hrc]

theorem decodeWord_encode (b : Bool) (i : Instr) (h : i.wellFormed b = true) : decodeWord b (encode i) = .instr i :=
  (decodeWord_eq_instr_iff b _ i).mpr ⟨i.hasFields_encode, h⟩

theorem decodeBytes_bytesOfWord (b : Bool) (w : Word) (i : Instr) (rest : List Byte)
    (h : decodeWord b w = .instr i) : decodeBytes b (bytesOfWord w ++ rest) = .instr i rest := by
  simp [bytesOfWord, decodeBytes, wordOfBytes_bytesOfWord, h]

/-- Settles O3: an encoded word has its instruction's fields, and the decoder answers by the fields. -/
theorem decodeEncodeRoundTrip : Obligations.DecodeEncodeRoundTrip := by
  intro b i rest hwf
  have hword := decodeWord_encode b i hwf
  exact ⟨hword, decodeBytes_bytesOfWord b _ i rest hword⟩

/-- Settles O4: what a word decodes to has the word's fields, and they fill the word. -/
theorem encodeInvertsDecode : Obligations.EncodeInvertsDecode := by
  intro b w i h
  obtain ⟨hfields, hwf⟩ := (decodeWord_eq_instr_iff b w i).mp h
  exact ⟨hfields.encode_eq, hwf⟩

/-- Settles O10: the fields of an encoded word, instruction by instruction. -/
theorem encodedFieldsStandAtTheirPlaces : Obligations.EncodedFieldsStandAtTheirPlaces := by
  refine ⟨fun rs ra d => ?_, fun rs ra rb rc => ?_⟩
  · obtain ⟨hopcd, hrs, hra, hd⟩ := (Instr.sth rs ra d).hasFields_encode
    obtain ⟨hopcd', hrs', hra', hd'⟩ := (Instr.sthu rs ra d).hasFields_encode
    exact ⟨hopcd, congrArg Fin.val hrs, congrArg Fin.val hra, hd,
      hopcd', congrArg Fin.val hrs', congrArg Fin.val hra', hd'⟩
  · obtain ⟨hopcd, hrs, hra, hrb, hxo, hrc⟩ := (Instr.sthx rs ra rb rc).hasFields_encode
    obtain ⟨hopcd', hrs', hra', hrb', hxo', hrc'⟩ := (Instr.sthux rs ra rb rc).hasFields_encode
    exact ⟨hopcd, congrArg Fin.val hrs, congrArg Fin.val hra, congrArg Fin.val hrb, hxo, hrc,
      hopcd', congrArg Fin.val hrs', congrArg Fin.val hra', congrArg Fin.val hrb', hxo', hrc'⟩

/-! ## Masks, field by field (rules R74, R82) -/

theorem word_eq_iff_fields (v w : Word) :
    v = w ↔ v.extractLsb' 26 6 = w.extractLsb' 26 6 ∧ v.extractLsb' 21 5 = w.extractLsb' 21 5 ∧
      v.extractLsb' 16 5 = w.extractLsb' 16 5 ∧ v.extractLsb' 11 5 = w.extractLsb' 11 5 ∧
      v.extractLsb' 1 10 = w.extractLsb' 1 10 ∧ v.extractLsb' 0 1 = w.extractLsb' 0 1 := by
  constructor
  · rintro rfl
    exact ⟨rfl, rfl, rfl, rfl, rfl, rfl⟩
  · rintro ⟨hopcd, hrs, hra, hrb, hxo, hrc⟩
    rw [← formWord_fields v, ← formWord_fields w, ← xLow_fields v, ← xLow_fields w]
    simp only [opcdField, rsField, raField, rbField, xoField, rcField, hopcd, hrs, hra, hrb, hxo, hrc]

section
variable (w : Word)

theorem and_opcdMask (x : BitVec 6) : x &&& 63#6 = x := BitVec.and_allOnes
theorem and_regMask (x : BitVec 5) : x &&& 31#5 = x := BitVec.and_allOnes
theorem and_xoMask (x : BitVec 10) : x &&& 1023#10 = x := BitVec.and_allOnes
theorem and_rcMask (x : BitVec 1) : x &&& 1#1 = x := BitVec.and_allOnes

theorem and_dMask_eq_sth_iff : w &&& dMask = 0xB0000000#32 ↔ opcdField w = 44#6 := by
  rw [word_eq_iff_fields]
  simp [dMask, BitVec.extractLsb'_and, and_opcdMask, opcdField]

theorem and_dMask_eq_sthu_iff : w &&& dMask = 0xB4000000#32 ↔ opcdField w = 45#6 := by
  rw [word_eq_iff_fields]
  simp [dMask, BitVec.extractLsb'_and, and_opcdMask, opcdField]

theorem and_xMask_eq_sthux_iff (b : Bool) :
    w &&& xMask b = 0x7C00036E#32 ↔ opcdField w = 31#6 ∧ xoField w = 439#10 ∧ rcLegal b (rcField w) = true := by
  rw [word_eq_iff_fields]
  cases b <;>
    simp [xMask, rcLegal, BitVec.extractLsb'_and, and_opcdMask, and_xoMask, and_rcMask, opcdField, xoField, rcField]

theorem and_xMask_eq_sthx_iff (b : Bool) :
    w &&& xMask b = 0x7C00032E#32 ↔ opcdField w = 31#6 ∧ xoField w = 407#10 ∧ rcLegal b (rcField w) = true := by
  rw [word_eq_iff_fields]
  cases b <;>
    simp [xMask, rcLegal, BitVec.extractLsb'_and, and_opcdMask, and_xoMask, and_rcMask, opcdField, xoField, rcField]

/-- The instruction of the same row of rule R74's table with the operands that stand in the word. -/
def Instr.readFrom (w : Word) : Instr → Instr
  | .sth _ _ _ => .sth (rsField w) (raField w) (dField w)
  | .sthu _ _ _ => .sthu (rsField w) (raField w) (dField w)
  | .sthux _ _ _ _ => .sthux (rsField w) (raField w) (rbField w) (rcField w)
  | .sthx _ _ _ _ => .sthx (rsField w) (raField w) (rbField w) (rcField w)

theorem Instr.opcodeWord_readFrom (i : Instr) : (i.readFrom w).opcodeWord = i.opcodeWord := by
  cases i <;> rfl

theorem and_mask_eq_opcodeWord_iff (b : Bool) (i : Instr) :
    w &&& i.mask b = i.opcodeWord ↔ (i.readFrom w).HasFields w ∧ (i.readFrom w).wellFormed b = true := by
  cases i with
  | sth rs ra d =>
    refine (and_dMask_eq_sth_iff w).trans ⟨fun hopcd => ⟨⟨hopcd, rfl, rfl, rfl⟩, rfl⟩, ?_⟩
    rintro ⟨⟨hopcd, -⟩, -⟩
    exact hopcd
  | sthu rs ra d =>
    refine (and_dMask_eq_sthu_iff w).trans ⟨fun hopcd => ⟨⟨hopcd, rfl, rfl, rfl⟩, rfl⟩, ?_⟩
    rintro ⟨⟨hopcd, -⟩, -⟩
    exact hopcd
  | sthux rs ra rb rc =>
    refine (and_xMask_eq_sthux_iff w b).trans ⟨fun ⟨hopcd, hxo, hrc⟩ => ⟨⟨hopcd, rfl, rfl, rfl, hxo, rfl⟩, hrc⟩, ?_⟩
    rintro ⟨⟨hopcd, -, -, -, hxo, -⟩, hrc⟩
    exact ⟨hopcd, hxo, hrc⟩
  | sthx rs ra rb rc =>
    refine (and_xMask_eq_sthx_iff w b).trans ⟨fun ⟨hopcd, hxo, hrc⟩ => ⟨⟨hopcd, rfl, rfl, rfl, hxo, rfl⟩, hrc⟩, ?_⟩
    rintro ⟨⟨hopcd, -, -, -, hxo, -⟩, hrc⟩
    exact ⟨hopcd, hxo, hrc⟩

/-- A word is in a row exactly when it decodes to that row's instruction with the operands that stand in it. -/
theorem and_mask_eq_opcodeWord_iff_decodeWord (b : Bool) (i : Instr) :
    w &&& i.mask b = i.opcodeWord ↔ decodeWord b w = .instr (i.readFrom w) :=
  (and_mask_eq_opcodeWord_iff w b i).trans (decodeWord_eq_instr_iff b w _).symm

theorem raField_eq_zero_iff : raField w = 0 ↔ w.extractLsb' 16 5 = 0#5 := BitVec.toFin_inj (y := 0#5)

theorem and_invalidSthuMask_iff : w &&& 0xFC1F0000#32 = 0xB4000000#32 ↔ opcdField w = 45#6 ∧ raField w = 0 := by
  rw [word_eq_iff_fields, raField_eq_zero_iff]
  simp [BitVec.extractLsb'_and, and_opcdMask, and_regMask, opcdField]

theorem and_invalidSthuxMask_iff : w &&& 0xFC1F07FF#32 = 0x7C00036E#32 ↔
    opcdField w = 31#6 ∧ raField w = 0 ∧ xoField w = 439#10 ∧ rcField w = 0#1 := by
  rw [word_eq_iff_fields, raField_eq_zero_iff]
  simp [BitVec.extractLsb'_and, and_opcdMask, and_regMask, and_xoMask, and_rcMask, opcdField, xoField, rcField]

end

/-- By default an X form decodes with its own bit `Rc` exactly when it decodes with `Rc` = 0 (rule R81). -/
theorem decodeWord_false_sthux_rc (w : Word) (rs ra rb : Reg) :
    decodeWord false w = .instr (.sthux rs ra rb (rcField w)) ↔ decodeWord false w = .instr (.sthux rs ra rb 0#1) := by
  simp [decodeWord_eq_instr_iff, Instr.HasFields, Instr.wellFormed, rcLegal, and_assoc]

theorem decodeWord_false_sthx_rc (w : Word) (rs ra rb : Reg) :
    decodeWord false w = .instr (.sthx rs ra rb (rcField w)) ↔ decodeWord false w = .instr (.sthx rs ra rb 0#1) := by
  simp [decodeWord_eq_instr_iff, Instr.HasFields, Instr.wellFormed, rcLegal, and_assoc]

/-- Settles O5: each clause is one row of the table, read at any instruction of that row. -/
theorem decodeFollowsMatchAndMask : Obligations.DecodeFollowsMatchAndMask :=
  ⟨fun b w => and_mask_eq_opcodeWord_iff_decodeWord w b (.sth 0 0 0),
    fun b w => and_mask_eq_opcodeWord_iff_decodeWord w b (.sthu 0 0 0),
    fun w => (and_mask_eq_opcodeWord_iff_decodeWord w false (.sthux 0 0 0 0)).trans (decodeWord_false_sthux_rc w _ _ _),
    fun w => (and_mask_eq_opcodeWord_iff_decodeWord w false (.sthx 0 0 0 0)).trans (decodeWord_false_sthx_rc w _ _ _),
    fun w => and_mask_eq_opcodeWord_iff_decodeWord w true (.sthux 0 0 0 0),
    fun w => and_mask_eq_opcodeWord_iff_decodeWord w true (.sthx 0 0 0 0)⟩

/-- Settles O6: a word in two rows decodes to an instruction of each, and the decoder gives one answer. -/
theorem noWordMatchesTwoRows : Obligations.NoWordMatchesTwoRows := by
  intro b w i j hi hj
  rw [and_mask_eq_opcodeWord_iff_decodeWord] at hi hj
  have hsame : i.readFrom w = j.readFrom w := Decoded.instr.inj (hi.symm.trans hj)
  rw [← i.opcodeWord_readFrom w, hsame, j.opcodeWord_readFrom w]

/-! ## The invalid forms (rule R82) -/

theorem and_sthuMask_iff_decodeWord (w : Word) :
    w &&& 0xFC1F0000#32 = 0xB4000000#32 ↔ ∃ rs d, decodeWord false w = .instr (.sthu rs 0 d) := by
  simp [and_invalidSthuMask_iff, decodeWord_eq_instr_iff, Instr.HasFields, Instr.wellFormed]

theorem and_sthuxMask_iff_decodeWord (w : Word) :
    w &&& 0xFC1F07FF#32 = 0x7C00036E#32 ↔ ∃ rs rb, decodeWord false w = .instr (.sthux rs 0 rb 0#1) := by
  simp [and_invalidSthuxMask_iff, decodeWord_eq_instr_iff, Instr.HasFields, Instr.wellFormed, rcLegal]

/-- By default an instruction that decodes and is an invalid form is an update form with `RA` = 0 and no `Rc`. -/
theorem decodeWord_false_invalidForm (w : Word) (i : Instr) (h : decodeWord false w = .instr i)
    (hinv : i.isInvalidForm = true) : (∃ rs d, i = .sthu rs 0 d) ∨ ∃ rs rb, i = .sthux rs 0 rb 0#1 := by
  obtain ⟨-, hwf⟩ := (decodeWord_eq_instr_iff false w i).mp h
  cases i with
  | sth rs ra d => cases hinv
  | sthx rs ra rb rc => cases hinv
  | sthu rs ra d =>
    obtain rfl : ra = 0 := by simpa [Instr.isInvalidForm] using hinv
    exact .inl ⟨rs, d, rfl⟩
  | sthux rs ra rb rc =>
    obtain rfl : ra = 0 := by simpa [Instr.isInvalidForm] using hinv
    obtain rfl : rc = 0#1 := by simpa [Instr.wellFormed, rcLegal] using hwf
    exact .inr ⟨rs, rb, rfl⟩

/-- Settles O9: each mask says that the word decodes to its update form with `RA` = 0, and nothing else is invalid. -/
theorem invalidFormWords : Obligations.InvalidFormWords := by
  refine ⟨and_sthuMask_iff_decodeWord, and_sthuxMask_iff_decodeWord, fun w i h hinv => ?_⟩
  obtain ⟨rs, d, rfl⟩ | ⟨rs, rb, rfl⟩ := decodeWord_false_invalidForm w i h hinv
  · exact .inl ((and_sthuMask_iff_decodeWord w).mpr ⟨rs, d, h⟩)
  · exact .inr ((and_sthuxMask_iff_decodeWord w).mpr ⟨rs, rb, h⟩)

/-- Settles O1: twelve fixed words, each decoded by evaluation. -/
theorem sampleWordsDecode : Obligations.SampleWordsDecode := by
  unfold Obligations.SampleWordsDecode
  decide

end Sys2Proof

namespace Sys2Proof.Machine

/-! ## The base that is literally zero (rule R78) -/

theorem State.x_setX_of_ne (s : State) (r q : Reg) (v : Dword) (h : q ≠ r) : (s.setX r v).x q = s.x q := by
  rw [State.x_setX, if_neg h]

theorem State.setX_comm (s : State) (r q : Reg) (v u : Dword) (h : q ≠ r) :
    (s.setX r v).setX q u = (s.setX q u).setX r v := by
  simp only [State.setX, Vector.set_comm v u (Fin.val_ne_of_ne h.symm)]

theorem State.resInvalidate_setX (s : State) (r : Reg) (v : Dword) (ea : Addr) :
    (s.setX r v).resInvalidate ea = (s.resInvalidate ea).setX r v := by
  unfold State.resInvalidate
  simp only [State.setX]
  split
  · rfl
  · split <;> rfl

theorem State.storeHalf_setX (s : State) (r : Reg) (v : Dword) (ea : Addr) (h : Half) :
    (s.setX r v).storeHalf ea h = (s.storeHalf ea h).setX r v := by
  rw [State.storeHalf, State.resInvalidate_setX]
  rfl

/-- A register that the instruction does not write, replaced without a change of the address and the value, may be
replaced before or after the completed store. -/
theorem State.afterStore_setX (s : State) (i : Instr) (r : Reg) (v : Dword)
    (hea : (s.setX r v).storeAddress i = s.storeAddress i) (hval : (s.setX r v).storeValue i = s.storeValue i)
    (hupd : i.updatedReg ≠ some r) : (s.setX r v).afterStore i = (s.afterStore i).setX r v := by
  simp only [State.afterStore, hea, hval, State.storeHalf_setX]
  cases hreg : i.updatedReg with
  | none => rfl
  | some ra =>
    have hne : ra ≠ r := fun h => hupd (hreg.trans (congrArg some h))
    exact congrArg State.advancePc (State.setX_comm _ r ra v _ hne)

/-- Such a replacement may be made before or after the instruction, whatever its outcome. -/
theorem exec_setX_comm (i : Instr) (s : State) (r : Reg) (v : Dword)
    (hea : (s.setX r v).storeAddress i = s.storeAddress i) (hval : (s.setX r v).storeValue i = s.storeValue i)
    (hupd : i.updatedReg ≠ some r) : exec i (s.setX r v) = mapNext (fun t => t.setX r v) (exec i s) :=
  exec_update_comm (fun t => t.setX r v) i s rfl rfl hea (s.afterStore_setX i r v hea hval hupd)

theorem State.base0_zero (s : State) : s.base0 0 = 0#64 := if_pos rfl

theorem State.base0_of_ne_zero (s : State) (ra : Reg) (h : ra ≠ 0) : s.base0 ra = s.x ra := if_neg h

theorem State.storeValue_setX_of_ne (s : State) (i : Instr) (r : Reg) (v : Dword) (h : i.sourceReg ≠ r) :
    (s.setX r v).storeValue i = s.storeValue i :=
  congrArg trunc16 (s.x_setX_of_ne r i.sourceReg v h)

/-- Settles O17: with the literal-zero base, `r0` is read neither for the address nor for the value. -/
theorem baseZeroFormIgnoresR0 : Obligations.BaseZeroFormIgnoresR0 := by
  refine ⟨fun s => ⟨s.base0_zero, s.base0_of_ne_zero⟩, fun s v rs d hrs => ?_, fun s v rs rb rc hrs hrb => ?_⟩
  · exact exec_setX_comm _ s 0 v rfl (s.storeValue_setX_of_ne _ 0 v hrs) nofun
  · have hea : (s.setX 0 v).eaSthx 0 rb = s.eaSthx 0 rb := by
      simp only [State.eaSthx, State.base0_zero, State.x_setX_of_ne _ _ _ _ hrb]
    exact exec_setX_comm _ s 0 v hea (s.storeValue_setX_of_ne _ 0 v hrs) nofun

end Sys2Proof.Machine
end

section
/-! PROOFS for 40_store_halfword.md: address arithmetic, the advance of `pc` along a run, what each of the four
completed stores leaves, which bits of the source register matter, and the flags. -/

namespace Sys2Proof.Machine

/-! ## The advance of `pc` (rule R114, decisions D11 and D16) -/

/-- The check `PcWrap` passed, so the advance does not wrap (rules R23, R112). -/
theorem State.afterStore_pc_toNat (s : State) (i : Instr) (ea : Addr) (h : s.storeAllowed ea) :
    (s.afterStore i).pc.toNat = s.pc.toNat + 4 := by
  obtain ⟨-, -, -, hpc⟩ := h
  rw [State.afterStore_pc, BitVec.toNat_add_of_lt hpc]
  rfl

theorem run_succ_next (k : Nat) (s u : State) : Host.Core.run Sys2Proof.core (k + 1) s = .next u ↔
    ∃ t, step s = .next t ∧ Host.Core.run Sys2Proof.core k t = .next u := by
  simp only [Host.Core.run]
  have hstep : Sys2Proof.core.step s = step s := rfl
  rw [hstep]
  cases step s <;> simp

/-- Settles O44, by induction on the number of steps. -/
theorem runsAdvancePcByFourEachStep : Obligations.RunsAdvancePcByFourEachStep := by
  intro k
  induction k with
  | zero =>
    intro s t h
    cases h
    rfl
  | succ k ih =>
    intro s u h
    obtain ⟨t, hstep, hrun⟩ := (run_succ_next k s u).mp h
    obtain ⟨i, -, hallowed, rfl⟩ := step_next_afterStore s t hstep
    rw [ih _ u hrun, s.afterStore_pc_toNat i _ hallowed]
    omega

/-- Settles O25: a completed instruction advances `pc`, and a step is the fetch at `pc` and what it gives. -/
theorem everyInstructionGoesOnToTheNextWord : Obligations.EveryInstructionGoesOnToTheNextWord := by
  intro i s t h
  obtain ⟨-, hallowed, ht⟩ := (exec_next i s t).mp h
  have hpc : t.pc = s.pc + 4#32 := ht ▸ s.afterStore_pc i
  refine ⟨hpc, ht ▸ s.afterStore_pc_toNat i _ hallowed, ?_⟩
  rw [← hpc]
  rfl

/-! ## Address arithmetic (rule R113) -/

/-- Settles O13: the sum by `effectiveAddress_eq_add_setWidth`, the three sign extensions by evaluation. -/
theorem addressArithmeticIsModulo32Bits : Obligations.AddressArithmeticIsModulo32Bits :=
  ⟨effectiveAddress_eq_add_setWidth, by decide, by decide, by decide⟩

/-! ## What a completed store leaves (rules R101 to R107) -/

/-- The invalid forms are the update forms of `r0` (rules R79, R82). -/
theorem Instr.isInvalidForm_iff (i : Instr) : i.isInvalidForm = true ↔ i.updatedReg = some 0 := by
  cases i <;> simp [Instr.isInvalidForm, Instr.updatedReg]

theorem State.storeValue_eq_setWidth (s : State) (i : Instr) : s.storeValue i = (s.x i.sourceReg).setWidth 16 :=
  (BitVec.setWidth_eq_extractLsb' (by decide)).symm

theorem State.halfStoredAt_afterStore (s : State) (i : Instr) :
    HalfStoredAt s (s.afterStore i) (s.storeAddress i) (s.storeValue i) :=
  halfStoredAt_of_readByte (s.readByte_afterStore i)

theorem State.afterStore_gpr_of_no_update (s : State) (i : Instr) (h : i.updatedReg = none) :
    (s.afterStore i).gpr = s.gpr := by
  simp [State.afterStore, h]

theorem State.x_afterStore_updatedReg (s : State) (i : Instr) (ra : Reg) (h : i.updatedReg = some ra) :
    (s.afterStore i).x ra = zext64 (s.storeAddress i) := by
  rw [State.x_afterStore, if_pos h]

/-- What all four leave in common where the store at `ea` is allowed: the half word at `ea`, `pc` one word further,
the other state as before, and the reservations rule R28 leaves. -/
def StoreCompleted (s t : State) (ea : Addr) (v : Half) : Prop :=
  HalfStoredAt s t ea v ∧ t.pc.toNat = s.pc.toNat + 4 ∧ OtherStateSame s t ∧
  t.reservation = (s.resInvalidate ea).reservation

theorem storeCompleted_afterStore (s : State) (i : Instr) (h : s.storeAllowed (s.storeAddress i)) :
    StoreCompleted s (s.afterStore i) (s.storeAddress i) ((s.x i.sourceReg).setWidth 16) :=
  ⟨s.storeValue_eq_setWidth i ▸ s.halfStoredAt_afterStore i, s.afterStore_pc_toNat i _ h,
    otherStateSame_afterStore s i, s.afterStore_reservation i⟩

/-- A form without update completes wherever its store is allowed, and leaves every register. -/
theorem exec_store_completes (i : Instr) (s : State) (hupd : i.updatedReg = none)
    (hallowed : s.storeAllowed (s.storeAddress i)) :
    ∃ t, exec i s = .next t ∧ StoreCompleted s t (s.storeAddress i) ((s.x i.sourceReg).setWidth 16) ∧
      t.gpr = s.gpr := by
  have hform : ¬ s.formStops i := by simp [Instr.isInvalidForm_iff, hupd]
  exact ⟨s.afterStore i, (exec_next i s _).mpr ⟨hform, hallowed, rfl⟩, storeCompleted_afterStore s i hallowed,
    s.afterStore_gpr_of_no_update i hupd⟩

/-- An update form completes wherever its form is not stopped and its store is allowed, and writes `RA` alone. -/
theorem exec_storeUpdate_completes (i : Instr) (s : State) (ra : Reg) (hupd : i.updatedReg = some ra)
    (hra : ra ≠ 0 ∨ s.params.invalidForm = .snapshot) (hallowed : s.storeAllowed (s.storeAddress i)) :
    ∃ t, exec i s = .next t ∧ StoreCompleted s t (s.storeAddress i) ((s.x i.sourceReg).setWidth 16) ∧
      t.x ra = (s.storeAddress i).setWidth 64 ∧ ∀ q, q ≠ ra → t.x q = s.x q := by
  have hform : ¬ s.formStops i := by
    rintro ⟨hinv, hfault⟩
    rw [Instr.isInvalidForm_iff, hupd, Option.some_inj] at hinv
    rcases hra with hne | hsnap
    · exact hne hinv
    · simp [hsnap] at hfault
  refine ⟨s.afterStore i, (exec_next i s _).mpr ⟨hform, hallowed, rfl⟩, storeCompleted_afterStore s i hallowed,
    s.x_afterStore_updatedReg i ra hupd, fun q hq => s.x_afterStore_of_ne i q fun h => ?_⟩
  exact hq (Option.some_inj.mp (h.symm.trans hupd))

/-- Settles O18: `sth` is a form without update. -/
theorem sthStoresAndCompletes : Obligations.SthStoresAndCompletes := by
  intro rs ra d s hallowed
  obtain ⟨t, hexec, ⟨hhalf, hpc, hother, hres⟩, hgpr⟩ := exec_store_completes (.sth rs ra d) s rfl hallowed
  exact ⟨t, hexec, effectiveAddress_eq_setWidth_add _ _, hhalf, hgpr, hpc, hother, hres⟩

/-- Settles O21: `sthx` is a form without update. -/
theorem sthxStoresAndCompletes : Obligations.SthxStoresAndCompletes := by
  intro rs ra rb rc s hallowed
  obtain ⟨t, hexec, ⟨hhalf, hpc, hother, hres⟩, hgpr⟩ := exec_store_completes (.sthx rs ra rb rc) s rfl hallowed
  exact ⟨t, hexec, effectiveAddress_eq_setWidth_add _ _, hhalf, hgpr, hpc, hother, hres⟩

/-- Settles O19: `sthu` is an update form of `RA`. -/
theorem sthuStoresUpdatesAndCompletes : Obligations.SthuStoresUpdatesAndCompletes := by
  intro rs ra d s hra hallowed
  obtain ⟨t, hexec, ⟨hhalf, hpc, hother, hres⟩, hback, hframe⟩ :=
    exec_storeUpdate_completes (.sthu rs ra d) s ra rfl hra hallowed
  exact ⟨t, hexec, effectiveAddress_eq_setWidth_add _ _, hhalf, hback, hframe, hpc, hother, hres⟩

/-- Settles O20: `sthux` is an update form of `RA`. -/
theorem sthuxStoresUpdatesAndCompletes : Obligations.SthuxStoresUpdatesAndCompletes := by
  intro rs ra rb rc s hra hallowed
  obtain ⟨t, hexec, ⟨hhalf, hpc, hother, hres⟩, hback, hframe⟩ :=
    exec_storeUpdate_completes (.sthux rs ra rb rc) s ra rfl hra hallowed
  exact ⟨t, hexec, effectiveAddress_eq_setWidth_add _ _, hhalf, hback, hframe, hpc, hother, hres⟩

/-! ## The value written back (rule R108) -/

/-- `zext_64` puts 32 zeros before the address (rule R8). -/
theorem zext64_eq_append (ea : Addr) : zext64 ea = 0#32 ++ ea :=
  (BitVec.setWidth_eq_append (by decide)).trans (BitVec.cast_eq _ _)

theorem extractLsb'_high_zext64 (ea : Addr) : (zext64 ea).extractLsb' 32 32 = 0#32 := by
  rw [zext64_eq_append, BitVec.extractLsb'_append_eq_left]

theorem extractLsb'_low_zext64 (ea : Addr) : (zext64 ea).extractLsb' 0 32 = ea := by
  rw [zext64_eq_append, BitVec.extractLsb'_append_eq_right]

theorem exec_next_x_updatedReg (i : Instr) (s t : State) (ra : Reg) (hupd : i.updatedReg = some ra)
    (h : exec i s = .next t) : t.x ra = zext64 (s.storeAddress i) := by
  obtain ⟨-, -, rfl⟩ := (exec_next i s t).mp h
  exact s.x_afterStore_updatedReg i ra hupd

/-- What `sthu` writes back, from the old value of its base. -/
theorem exec_sthu_next_x (rs ra : Reg) (d : Disp) (s t : State) (base : Dword) (hbase : s.x ra = base)
    (h : exec (.sthu rs ra d) s = .next t) : t.x ra = zext64 (effectiveAddress base (sext64 d)) :=
  hbase ▸ exec_next_x_updatedReg _ s t ra rfl h

/-- Settles O30: the value written back is `zext64` of the address; the two examples by evaluation. -/
theorem updateWritesTheZeroExtendedAddress : Obligations.UpdateWritesTheZeroExtendedAddress := by
  refine ⟨fun i s t ra hupd h => ?_, fun rs s t hbase h => ?_, fun rs s t hbase h => ?_⟩
  · rw [exec_next_x_updatedReg i s t ra hupd h]
    exact ⟨extractLsb'_high_zext64 _, extractLsb'_low_zext64 _⟩
  · rw [exec_sthu_next_x rs 4 _ s t _ hbase h]
    decide
  · rw [exec_sthu_next_x rs 4 _ s t _ hbase h]
    decide

/-! ## The bits of the source register that matter (rule R103) -/

theorem highByte_trunc16 (v : Dword) : highByte (trunc16 v) = v.extractLsb' 8 8 :=
  BitVec.extractLsb'_extractLsb'_of_le (by decide)

theorem lowByte_trunc16 (v : Dword) : lowByte (trunc16 v) = v.extractLsb' 0 8 :=
  BitVec.extractLsb'_extractLsb'_of_le (by decide)

theorem State.base0_setX_of_ne (s : State) (r ra : Reg) (v : Dword) (h : ra = 0 ∨ r ≠ ra) :
    (s.setX r v).base0 ra = s.base0 ra := by
  unfold State.base0
  split
  · rfl
  · rename_i hne
    exact s.x_setX_of_ne r ra v (h.resolve_left hne).symm

theorem State.storeValue_setX_sourceReg (s : State) (i : Instr) (v : Dword)
    (h : v.setWidth 16 = (s.x i.sourceReg).setWidth 16) :
    (s.setX i.sourceReg v).storeValue i = s.storeValue i := by
  rw [State.storeValue_eq_setWidth, State.storeValue_eq_setWidth, State.x_setX, if_pos rfl, h]

/-- The source register, where it is neither read for the address nor written, may be given another value of the same
low half word before or after the instruction. -/
theorem exec_setX_sourceReg_comm (i : Instr) (s : State) (v : Dword)
    (hlow : v.setWidth 16 = (s.x i.sourceReg).setWidth 16)
    (hea : (s.setX i.sourceReg v).storeAddress i = s.storeAddress i) (hupd : i.updatedReg ≠ some i.sourceReg) :
    exec i (s.setX i.sourceReg v) = mapNext (fun t => t.setX i.sourceReg v) (exec i s) :=
  exec_setX_comm i s i.sourceReg v hea (s.storeValue_setX_sourceReg i v hlow) hupd

/-- Settles O16: the two bytes by the half word stored; in each form `RS`, not being read for the address, may be
replaced by a value of the same low half word. -/
theorem onlyTheLowHalfOfTheSourceMatters : Obligations.OnlyTheLowHalfOfTheSourceMatters := by
  refine ⟨?_, fun s rs ra d v hlow hra => ?_, fun s rs ra d v hlow hra => ?_,
    fun s rs ra rb rc v hlow hra hrb => ?_, fun s rs ra rb rc v hlow hra hrb => ?_⟩
  · rintro i s t _ rfl h
    obtain ⟨-, -, rfl⟩ := (exec_next i s t).mp h
    obtain ⟨hhigh, hlow, -⟩ := s.halfStoredAt_afterStore i
    exact ⟨hhigh.trans (congrArg some (highByte_trunc16 _)), hlow.trans (congrArg some (lowByte_trunc16 _))⟩
  · have hea : (s.setX rs v).eaSth ra d = s.eaSth ra d := by
      simp only [State.eaSth, s.base0_setX_of_ne rs ra v hra]
    exact exec_setX_sourceReg_comm (.sth rs ra d) s v hlow hea nofun
  · have hea : (s.setX rs v).eaSthu ra d = s.eaSthu ra d := by
      simp only [State.eaSthu, s.x_setX_of_ne rs ra v hra.symm]
    exact exec_setX_sourceReg_comm (.sthu rs ra d) s v hlow hea fun h => hra (Option.some_inj.mp h).symm
  · have hea : (s.setX rs v).eaSthux ra rb = s.eaSthux ra rb := by
      simp only [State.eaSthux, s.x_setX_of_ne rs ra v hra.symm, s.x_setX_of_ne rs rb v hrb.symm]
    exact exec_setX_sourceReg_comm (.sthux rs ra rb rc) s v hlow hea fun h => hra (Option.some_inj.mp h).symm
  · have hea : (s.setX rs v).eaSthx ra rb = s.eaSthx ra rb := by
      simp only [State.eaSthx, s.base0_setX_of_ne rs ra v hra, s.x_setX_of_ne rs rb v hrb.symm]
    exact exec_setX_sourceReg_comm (.sthx rs ra rb rc) s v hlow hea nofun

/-! ## The flags (rule R111) -/

/-- An update of the state that leaves the reservation table and the draws alone, and that may be made before or after
any change of those two, may be made before or after `ResInvalidate`. -/
theorem State.resInvalidate_update_comm (f : State → State) (s : State) (ea : Addr)
    (hres : (f s).reservation = s.reservation) (hdraws : (f s).draws = s.draws)
    (hf : ∀ r d, { f s with reservation := r, draws := d } = f { s with reservation := r, draws := d }) :
    (f s).resInvalidate ea = f (s.resInvalidate ea) := by
  unfold State.resInvalidate
  simp only [hres, hdraws, hf]
  split
  · rfl
  · split <;> rfl

/-- The state with other contents of CR and XER. -/
def State.withCrXer (c : RegFile) (x : Xer) (s : State) : State := { s with cr := c, xer := x }

theorem State.storeAddress_withCrXer (c : RegFile) (x : Xer) (s : State) (i : Instr) :
    (s.withCrXer c x).storeAddress i = s.storeAddress i := by
  cases i <;> rfl

theorem State.storeHalf_withCrXer (c : RegFile) (x : Xer) (s : State) (ea : Addr) (h : Half) :
    (s.withCrXer c x).storeHalf ea h = (s.storeHalf ea h).withCrXer c x := by
  rw [State.storeHalf, State.resInvalidate_update_comm (State.withCrXer c x) s ea rfl rfl fun _ _ => rfl]
  rfl

theorem State.afterStore_withCrXer (c : RegFile) (x : Xer) (s : State) (i : Instr) :
    (s.withCrXer c x).afterStore i = (s.afterStore i).withCrXer c x := by
  have hvalue : (s.withCrXer c x).storeValue i = s.storeValue i := rfl
  simp only [State.afterStore, State.storeAddress_withCrXer, hvalue, State.storeHalf_withCrXer]
  cases i.updatedReg <;> rfl

/-- Settles O23: replacing CR and XER commutes with the completed store, no check looks at them, and an X form that
decodes by default is well-formed with `RC_IGNORED` false. -/
theorem flagsAreNeitherReadNorWritten : Obligations.FlagsAreNeitherReadNorWritten := by
  refine ⟨fun i s t h => ?_, fun i s c x => ?_, fun w rs ra rb rc h => ?_⟩
  · obtain ⟨-, -, rfl⟩ := (exec_next i s t).mp h
    simp only [State.flags, State.afterStore_cr, State.afterStore_xer]
  · exact exec_update_comm (State.withCrXer c x) i s rfl rfl (s.storeAddress_withCrXer c x i)
      (s.afterStore_withCrXer c x i)
  · have hrc : rcLegal false rc = true := by
      rcases h with h | h
      · exact (encodeInvertsDecode false w _ h).2
      · exact (encodeInvertsDecode false w _ h).2
    simpa [rcLegal] using hrc

end Sys2Proof.Machine
end

section
/-! PROOFS for 70_reset_and_hazards.md: what a step keeps of a loaded program, and what an instruction's store and
update are to the next instruction. -/

namespace Sys2Proof.Machine

/-! ## The program text after a completed store (rules R55, R161) -/

section
variable {s : State} {i : Instr} (hallowed : s.storeAllowed (s.storeAddress i))
include hallowed

/-- The check `StoreToCode` passed, so no byte of program text is written. -/
theorem State.readByte_afterStore_of_isCode {a : Addr} (ha : s.isCode a = true) :
    (s.afterStore i).readByte a = s.readByte a := by
  obtain ⟨-, -, ⟨hcode, hcode'⟩, -⟩ := hallowed
  have hne {ea : Addr} (h : s.isCode ea = false) : a ≠ ea := by
    rintro rfl
    simp [h] at ha
  exact s.readByte_afterStore_of_ne i a (hne hcode) (hne hcode')

theorem State.memRead4_afterStore_of_textAt {a : Addr} (ha : s.textAt a = true) :
    (s.afterStore i).memRead4 a = s.memRead4 a := by
  simp only [State.textAt, Bool.and_eq_true] at ha
  obtain ⟨⟨⟨h0, h1⟩, h2⟩, h3⟩ := ha
  simp only [State.memRead4, State.readByte_afterStore_of_isCode hallowed, h0, h1, h2, h3]

/-- What was fetched at an address before a completed store is fetched there after it. -/
theorem State.fetch_afterStore {a : Addr} {j : Instr} (h : s.fetch a = .instr j) :
    (s.afterStore i).fetch a = .instr j := by
  obtain ⟨halign, htext, w, hread, hdecode⟩ := (s.fetch_instr a j).mp h
  have htext' : (s.afterStore i).textAt a = s.textAt a := by
    simp only [State.textAt, State.isCode, State.afterStore_params]
  refine (State.fetch_instr _ a j).mpr ⟨halign, htext'.trans htext, w, ?_, ?_⟩
  · rw [State.memRead4_afterStore_of_textAt hallowed htext, hread]
  · rw [State.afterStore_params, hdecode]

theorem State.programLoaded_afterStore {base n : Nat} (h : s.programLoaded base n) :
    (s.afterStore i).programLoaded base n := by
  obtain ⟨halign, htop, hregion, hfetch, hdata⟩ := h
  refine ⟨halign, htop, ?_, fun k hk => ?_, fun a ha => ?_⟩
  · rw [State.afterStore_params, hregion]
  · obtain ⟨j, hj⟩ := hfetch k hk
    exact ⟨j, State.fetch_afterStore hallowed hj⟩
  · simp only [State.admits, State.isCode, State.afterStore_params] at ha ⊢
    exact hdata a ha

end

/-! ## A step inside a loaded program (rule R161, decisions D12 and D16) -/

theorem State.programLoaded.fetch_pc {s : State} {base n : Nat} (h : s.programLoaded base n)
    (hbase : base ≤ s.pc.toNat) (hend : s.pc.toNat < base + 4 * n) (halign : s.pc.toNat % 4 = 0) :
    ∃ i, s.fetch s.pc = .instr i := by
  obtain ⟨hbase4, -, -, hfetch, -⟩ := h
  have hword : base + 4 * ((s.pc.toNat - base) / 4) = s.pc.toNat := by omega
  obtain ⟨i, hi⟩ := hfetch ((s.pc.toNat - base) / 4) (by omega)
  rw [hword, BitVec.ofNat_toNat, BitVec.setWidth_eq] at hi
  exact ⟨i, hi⟩

/-- Everything `checkStore` answers where no byte of program text is admitted and `pc` does not wrap: the checks
`StoreToCode` and `PcWrap` pass. -/
theorem State.checkStore_of_text_unadmitted (s : State) (ea : Addr)
    (hdata : ∀ a : Addr, s.admits a = true → s.isCode a = false) (hpc : s.pc.toNat + 4 < 2 ^ 32) :
    s.checkStore ea = none ∨ s.checkStore ea = some (.fault (.addressWrap ea s.pc)) ∨
      s.checkStore ea = some (.fault (.storeNotAdmitted ea s.pc)) := by
  by_cases hwrap : s.params.eaTop = .fault ∧ ea = 0xFFFFFFFF#32
  · exact .inr (.inl (if_pos hwrap))
  by_cases hadmit : s.admits ea = true ∧ s.admits (ea + 1#32) = true
  · have hallowed : s.storeAllowed ea := ⟨hwrap, hadmit, ⟨hdata ea hadmit.1, hdata _ hadmit.2⟩, hpc⟩
    exact .inl ((s.checkStore_none ea).mpr hallowed)
  · exact .inr (.inr ((if_neg hwrap).trans (if_pos hadmit)))

/-- Settles O45: the word at `pc` is fetched, the checks that could end the step otherwise pass, and a completed store
keeps the program loaded. -/
theorem loadedProgramStepsStayInTheProgram : Obligations.LoadedProgramStepsStayInTheProgram := by
  intro s base n hloaded hbase hend halign
  obtain ⟨i, hfetch⟩ := hloaded.fetch_pc hbase hend halign
  have hstep : step s = exec i s := by rw [step, hfetch]
  have ⟨hbase4, htop, _, _, hdata⟩ := hloaded
  have hpc : s.pc.toNat + 4 < 2 ^ 32 := by omega
  rw [hstep]
  by_cases hform : s.formStops i
  · exact .inr (.inl ⟨encode i, by rw [exec_eq, if_pos hform]⟩)
  rcases s.checkStore_of_text_unadmitted (s.storeAddress i) hdata hpc with hcheck | hcheck | hcheck
  · have hallowed := (s.checkStore_none _).mp hcheck
    exact .inl ⟨s.afterStore i, (exec_next i s _).mpr ⟨hform, hallowed, rfl⟩,
      State.programLoaded_afterStore hallowed hloaded, s.afterStore_pc_toNat i _ hallowed⟩
  · exact .inr (.inr (.inl ⟨s.storeAddress i, by rw [exec_eq, if_neg hform, hcheck]; rfl⟩))
  · exact .inr (.inr (.inr ⟨s.storeAddress i, by rw [exec_eq, if_neg hform, hcheck]; rfl⟩))

/-! ## Program order (decision D8) -/

/-- Every byte after a completed instruction, the byte at its address first. -/
theorem exec_next_readByte (i : Instr) (s t : State) (h : exec i s = .next t) (a : Addr) :
    t.readByte a =
      if a = s.storeAddress i then some ((s.storeValue i).extractLsb' 8 8)
      else if a = s.storeAddress i + 1#32 then some ((s.storeValue i).extractLsb' 0 8)
      else s.readByte a := by
  obtain ⟨-, -, rfl⟩ := (exec_next i s t).mp h
  rw [State.readByte_afterStore, ite_ite_comm]
  · rfl
  · rintro rfl
    exact (addr_ne_add_one _).symm

/-- Settles O36: the bytes after the second instruction, over the bytes after the first. -/
theorem laterStoreOverwritesEarlier : Obligations.LaterStoreOverwritesEarlier := by
  intro i j s t u hst htu a
  rw [exec_next_readByte j t u htu, exec_next_readByte i s t hst]

/-! ## The updated base (rule R163) -/

theorem setWidth_zext64 (ea : Addr) : (zext64 ea).setWidth 32 = ea := by
  rw [zext64, BitVec.setWidth_setWidth_of_le _ (by decide), BitVec.setWidth_eq]

/-- Both are the displacement as a signed number, modulo `2^32` (rule R76). -/
theorem setWidth_sext64 (d : Disp) : (sext64 d).setWidth 32 = d.signExtend 32 := by
  have hint : (sext64 d).toInt = d.toInt := BitVec.toInt_signExtend_of_le (by decide)
  rw [← BitVec.signExtend_eq_setWidth_of_le _ (by decide), BitVec.signExtend, hint, BitVec.signExtend]

theorem effectiveAddress_zext64_sext64 (ea : Addr) (d : Disp) :
    effectiveAddress (zext64 ea) (sext64 d) = ea + d.signExtend 32 := by
  rw [effectiveAddress_eq_add_setWidth, setWidth_zext64, setWidth_sext64]

/-- Settles O37: the base read is the address written back, zero-extended. -/
theorem updatedBaseFeedsTheNextInstruction : Obligations.UpdatedBaseFeedsTheNextInstruction := by
  intro rs ra d d' s t h
  have hbase : t.x ra = zext64 (s.eaSthu ra d) := exec_next_x_updatedReg _ s t ra rfl h
  refine ⟨?_, fun hra => ?_⟩
  · rw [State.eaSthu, hbase, effectiveAddress_zext64_sext64]
  · rw [State.eaSth, t.base0_of_ne_zero ra hra, hbase, effectiveAddress_zext64_sext64]

end Sys2Proof.Machine
end

section
/-! PROOFS for 30_encoding.md, 60_exceptions.md, 92_eei_decisions.md and the loading of text: which words are refused,
the checks and their order, what is fetched and run, what no run changes, and the state at reset. -/

namespace Sys2Proof

/-! ## Words that are refused (rules R81, R84, R85; decisions D2 and D3) -/

/-- The decoder's only other answer is the refusal of the word itself (rule R84). -/
theorem decodeWord_eq_notInScope (b : Bool) (w : Word) (h : ∀ i, decodeWord b w ≠ .instr i) :
    decodeWord b w = .notInScope w := by
  unfold decodeWord at h ⊢
  split_ifs at h ⊢
  case neg => rfl
  all_goals exact absurd rfl (h _)

/-- A word that decodes matches the row of what it decodes to (rule R74). -/
theorem and_mask_eq_opcodeWord_of_decodeWord (b : Bool) (w : Word) (i : Instr) (h : decodeWord b w = .instr i) :
    w &&& i.mask b = i.opcodeWord := by
  obtain ⟨rfl, hwf⟩ := encodeInvertsDecode b w i h
  cases i with
  | sth rs ra d => exact Laws.MatchesRow.sth rs ra d b hwf
  | sthu rs ra d => exact Laws.MatchesRow.sthu rs ra d b hwf
  | sthux rs ra rb rc => exact Laws.MatchesRow.sthux rs ra rb rc b hwf
  | sthx rs ra rb rc => exact Laws.MatchesRow.sthx rs ra rb rc b hwf

theorem decodeWord_of_no_row (b : Bool) (w : Word) (hsth : w &&& dMask ≠ 0xB0000000#32)
    (hsthu : w &&& dMask ≠ 0xB4000000#32) (hsthux : w &&& xMask b ≠ 0x7C00036E#32)
    (hsthx : w &&& xMask b ≠ 0x7C00032E#32) : decodeWord b w = .notInScope w := by
  refine decodeWord_eq_notInScope b w fun i h => ?_
  have hrow := and_mask_eq_opcodeWord_of_decodeWord b w i h
  cases i with
  | sth rs ra d => exact hsth hrow
  | sthu rs ra d => exact hsthu hrow
  | sthux rs ra rb rc => exact hsthux hrow
  | sthx rs ra rb rc => exact hsthx hrow

/-- With the opcode fields of an X form, it is the bit `Rc` alone that decides whether a word decodes (rule R81). -/
theorem exists_decodeWord_xForm_iff (b : Bool) (w : Word) (hopcd : opcdField w = 31#6)
    (hxo : xoField w = 407#10 ∨ xoField w = 439#10) :
    (∃ i, decodeWord b w = .instr i) ↔ rcLegal b (rcField w) = true := by
  constructor
  · rintro ⟨i, h⟩
    obtain ⟨hopcd', -⟩ | ⟨hopcd', -⟩ | ⟨-, -, hrc, -⟩ | ⟨-, -, hrc, -⟩ := decodeWord_instr b w i h
    · exact absurd (hopcd.symm.trans hopcd') (by decide)
    · exact absurd (hopcd.symm.trans hopcd') (by decide)
    · exact hrc
    · exact hrc
  · intro hrc
    rcases hxo with hxo | hxo
    · exact ⟨_, (and_mask_eq_opcodeWord_iff_decodeWord w b (.sthx 0 0 0 0)).mp
        ((and_xMask_eq_sthx_iff w b).mpr ⟨hopcd, hxo, hrc⟩)⟩
    · exact ⟨_, (and_mask_eq_opcodeWord_iff_decodeWord w b (.sthux 0 0 0 0)).mp
        ((and_xMask_eq_sthux_iff w b).mpr ⟨hopcd, hxo, hrc⟩)⟩

/-- Settles O8: `Rc` decides, and it is legal exactly if it is 0 or `RC_IGNORED` holds. -/
theorem recordBitIsRefusedUnlessIgnored : Obligations.RecordBitIsRefusedUnlessIgnored := by
  intro w hopcd hxo
  have hdecodes (b : Bool) := exists_decodeWord_xForm_iff b w hopcd hxo
  refine ⟨fun hrc => decodeWord_eq_notInScope false w fun i h => ?_, (hdecodes true).mpr rfl, fun hrc => ?_⟩
  · have hlegal := (hdecodes false).mp ⟨i, h⟩
    simp [rcLegal, rcField, hrc] at hlegal
  · exact (hdecodes false).mpr (by simp [rcLegal, rcField, hrc])

/-- Settles O2: seven fixed decodings, by evaluation. -/
theorem sampleWordsOutsideScope : Obligations.SampleWordsOutsideScope := by
  unfold Obligations.SampleWordsOutsideScope
  decide

/-- The host's reading of the decoder, on a word of 32 bits, is the decoder with `RC_IGNORED` false. -/
theorem decodeTableWord_of_decodeWord (w : Nat) (i : Instr) (hw : w < 2 ^ 32)
    (h : decodeWord false (BitVec.ofNat 32 w) = .instr i) : decodeTableWord 32 w = some i := by
  have hbytes := decodeBytes_bytesOfWord false _ i [] h
  rw [List.append_nil] at hbytes
  rw [decodeTableWord, Nat.mod_eq_of_lt hw]
  simp only [Params.default, hbytes]

end Sys2Proof

namespace Sys2Proof.Machine

/-- Settles O11: each word decodes, and its instruction is spelled, by evaluation. -/
theorem sampleWordsAreSpelledAsTheSpecSpellsThem : Obligations.SampleWordsAreSpelledAsTheSpecSpellsThem :=
  ⟨⟨.sth 3 4 8#16, by decide, by decide⟩, ⟨.sth 5 0 256#16, by decide, by decide⟩,
    ⟨.sthx 3 0 5 0#1, by decide, by decide⟩, ⟨.sthux 3 4 5 0#1, by decide, by decide⟩⟩

/-! ## What a step runs (rules R56, R84; decisions D3, D9, D10 and D13) -/

section
variable {s : State} {w : Word} (halign : s.pc.toNat % 4 = 0) (htext : s.textAt s.pc = true)
  (hread : s.memRead4 s.pc = some w)
include halign htext hread

theorem step_of_decodeWord_instr {i : Instr} (hdecode : decodeWord s.params.rcIgnored w = .instr i) :
    step s = exec i s := by
  rw [step, (s.fetch_instr s.pc i).mpr ⟨halign, htext, w, hread, hdecode⟩]

theorem step_of_decodeWord_notInScope (hdecode : decodeWord s.params.rcIgnored w = .notInScope w) :
    step s = .refused (.notInScope w s.pc) := by
  have hfetch : s.fetch s.pc = .stop (.refusal (.notInScope w s.pc)) := by
    simp [State.fetch, halign, htext, hread, hdecode]
  rw [step, hfetch]
  rfl

end

/-- Settles O7: a word that decoded would match its own row, and what the decoder refuses the step refuses. -/
theorem wordsOutsideRowsAreRefused : Obligations.WordsOutsideRowsAreRefused := by
  intro s w hsth hsthu hsthux hsthx
  have hdecode := decodeWord_of_no_row s.params.rcIgnored w hsth hsthu hsthux hsthx
  exact ⟨hdecode, fun halign htext hread => step_of_decodeWord_notInScope halign htext hread hdecode⟩

/-- Settles O38: the four bytes are program text, and the word they make is read. -/
theorem stepRunsTheDecodedInstruction : Obligations.StepRunsTheDecodedInstruction := by
  intro s b0 b1 b2 b3 i halign hc0 hc1 hc2 hc3 h0 h1 h2 h3 hdecode
  have htext : s.textAt s.pc = true := by simp only [State.textAt, hc0, hc1, hc2, hc3, Bool.and_self]
  exact step_of_decodeWord_instr halign htext (State.memRead4_of_bytes h0 h1 h2 h3) hdecode

/-! ## A loaded word (rules R56, R161; log entry 8) -/

theorem State.writeBytes_pc (s : State) (a : Addr) (bs : List Byte) : (s.writeBytes a bs).pc = s.pc := by
  induction bs generalizing s a with
  | nil => rfl
  | cons b rest ih => exact ih _ _

theorem State.writeBytes_params (s : State) (a : Addr) (bs : List Byte) : (s.writeBytes a bs).params = s.params := by
  induction bs generalizing s a with
  | nil => rfl
  | cons b rest ih => exact ih _ _

/-- The bytes of a word, written at an address, read back as the word (rules R43, R56). -/
theorem State.memRead4_writeBytes_bytesOfWord (s : State) (a : Addr) (w : Word) :
    (s.writeBytes a (bytesOfWord w)).memRead4 a = some w := by
  have hbytes : (s.writeBytes a (bytesOfWord w)).memRead4 a =
      some (wordOfBytes (w.extractLsb' 24 8) (w.extractLsb' 16 8) (w.extractLsb' 8 8) (w.extractLsb' 0 8)) := by
    apply State.memRead4_of_bytes <;>
      simp [State.writeBytes, bytesOfWord, State.readByte_writeByte, BitVec.add_assoc]
  rw [hbytes, wordOfBytes_bytesOfWord]

theorem State.placeText_pc (s : State) (base : Addr) (words : List Word) : (s.placeText base words).pc = s.pc :=
  s.writeBytes_pc base _

theorem State.placeText_rcIgnored (s : State) (base : Addr) (words : List Word) :
    (s.placeText base words).params.rcIgnored = s.params.rcIgnored := by
  simp only [State.placeText, State.writeBytes_params]

/-- A placed word is read at its address: placing text writes its bytes, and the region is no part of memory. -/
theorem State.memRead4_placeText_word (s : State) (base : Addr) (w : Word) :
    (s.placeText base [w]).memRead4 base = some w :=
  s.memRead4_writeBytes_bytesOfWord base w

theorem State.isCode_placeText_word (s : State) (base : Addr) (w : Word) (a : Addr) (hbase : base.toNat ≤ a.toNat)
    (htop : a.toNat < base.toNat + 4) : (s.placeText base [w]).isCode a = true := by
  simp [State.isCode, State.placeText, inRegions, regionHolds, hbase, htop]

/-- The four bytes of a word at a multiple of 4 do not cross the top of the address space. -/
theorem State.textAt_placeText_word (s : State) (base : Addr) (w : Word) (halign : base.toNat % 4 = 0) :
    (s.placeText base [w]).textAt base = true := by
  have hcode (k : Addr) (hk : k.toNat < 4) : (s.placeText base [w]).isCode (base + k) = true := by
    have hadd : (base + k).toNat = base.toNat + k.toNat := BitVec.toNat_add_of_lt (by omega)
    exact s.isCode_placeText_word base w _ (by omega) (by omega)
  have hcode0 : (s.placeText base [w]).isCode base = true := s.isCode_placeText_word base w _ (by omega) (by omega)
  simp only [State.textAt, hcode0, hcode 1#32 (by decide), hcode 2#32 (by decide), hcode 3#32 (by decide),
    Bool.and_self]

/-- Settles O39: the loaded word is program text at `pc` and reads back there, and loading leaves `pc` and
`RC_IGNORED`. -/
theorem loadedWordIsWhatTheNextStepRuns : Obligations.LoadedWordIsWhatTheNextStepRuns := by
  intro s w i halign hw hdecode
  refine ⟨?_, fun hrc => decodeTableWord_of_decodeWord w i hw (hrc ▸ hdecode)⟩
  rw [State.withFetchWord, Nat.mod_eq_of_lt hw]
  have hpc := s.placeText_pc s.pc [BitVec.ofNat 32 w]
  refine step_of_decodeWord_instr (w := BitVec.ofNat 32 w) ?_ ?_ ?_ ?_
  · rw [hpc, halign]
  · rw [hpc, s.textAt_placeText_word s.pc _ halign]
  · rw [hpc, s.memRead4_placeText_word]
  · rw [State.placeText_rcIgnored, hdecode]

/-! ## The checks, one lemma for each (rule R112; decisions D13 and D14) -/

section
variable {s : State} {ea : Addr}

theorem State.checkStore_of_wraps (hwraps : s.params.eaTop = .fault ∧ ea = 0xFFFFFFFF#32) :
    s.checkStore ea = some (.fault (.addressWrap ea s.pc)) :=
  if_pos hwraps

variable (hwraps : ¬ (s.params.eaTop = .fault ∧ ea = 0xFFFFFFFF#32))
include hwraps

theorem State.checkStore_of_not_admitted (hadmit : ¬ (s.admits ea = true ∧ s.admits (ea + 1#32) = true)) :
    s.checkStore ea = some (.fault (.storeNotAdmitted ea s.pc)) :=
  (if_neg hwraps).trans (if_pos hadmit)

variable (hadmit : s.admits ea = true ∧ s.admits (ea + 1#32) = true)
include hadmit

theorem State.checkStore_of_code (hcode : s.isCode ea = true ∨ s.isCode (ea + 1#32) = true) :
    s.checkStore ea = some (.refusal (.storeToCode ea s.pc)) :=
  (if_neg hwraps).trans ((if_neg (not_not.mpr hadmit)).trans (if_pos hcode))

variable (hcode : ¬ (s.isCode ea = true ∨ s.isCode (ea + 1#32) = true))
include hcode

theorem State.checkStore_of_pcWraps (hpc : 2 ^ 32 ≤ s.pc.toNat + 4) :
    s.checkStore ea = some (.fault (.pcWrap s.pc)) :=
  (if_neg hwraps).trans ((if_neg (not_not.mpr hadmit)).trans ((if_neg hcode).trans (if_pos hpc)))

theorem State.checkStore_of_no_failure (hpc : ¬ 2 ^ 32 ≤ s.pc.toNat + 4) : s.checkStore ea = none :=
  (if_neg hwraps).trans ((if_neg (not_not.mpr hadmit)).trans ((if_neg hcode).trans (if_neg hpc)))

end

section
variable {i : Instr} {s : State}

theorem exec_of_formStops (h : s.formStops i) : exec i s = .fault (.invalidForm (encode i) s.pc) := by
  rw [exec_eq, if_pos h]

/-- A check of the store that fails is the outcome of the instruction. -/
theorem exec_of_checkStore_some {e : Stop} (hform : ¬ s.formStops i)
    (hcheck : s.checkStore (s.storeAddress i) = some e) : exec i s = e.outcome := by
  rw [exec_eq, if_neg hform, hcheck]

theorem exec_of_checkStore_none (hform : ¬ s.formStops i) (hcheck : s.checkStore (s.storeAddress i) = none) :
    exec i s = .next (s.afterStore i) := by
  rw [exec_eq, if_neg hform, hcheck]

end

/-- Settles O27: check (0) is made by the fetch, check (1) by the form, and the others in turn by `checkStore`. -/
theorem checksAreMadeInOrder : Obligations.ChecksAreMadeInOrder := by
  refine ⟨fun s w => step_of_decodeWord_notInScope, fun i s => ⟨exec_of_formStops, ?_, ?_, ?_, ?_, ?_⟩⟩
  · intro hform hwraps
    exact exec_of_checkStore_some hform (State.checkStore_of_wraps hwraps)
  · intro hform hwraps hadmit
    exact exec_of_checkStore_some hform (State.checkStore_of_not_admitted hwraps hadmit)
  · intro hform hwraps hadmit hcode
    exact exec_of_checkStore_some hform (State.checkStore_of_code hwraps hadmit hcode)
  · intro hform hwraps hadmit hcode hpc
    exact exec_of_checkStore_some hform (State.checkStore_of_pcWraps hwraps hadmit hcode hpc)
  · intro hform hwraps hadmit hcode hpc
    exact ⟨_, exec_of_checkStore_none hform (State.checkStore_of_no_failure hwraps hadmit hcode hpc)⟩

/-- Settles O26: the fetch of a completed step was at a multiple of 4, and a completed store advances `pc` exactly; the
check `PcWrap` is reached where those before it pass. -/
theorem pcIsAlignedAtFetchAndMayNotWrap : Obligations.PcIsAlignedAtFetchAndMayNotWrap := by
  refine ⟨fun s t h => ?_, fun i s hpc hform htop hadmit hadmit' hcode hcode' => ?_⟩
  · obtain ⟨i, hfetch, hallowed, rfl⟩ := step_next_afterStore s t h
    obtain ⟨halign, -⟩ := (s.fetch_instr s.pc i).mp hfetch
    exact ⟨halign, s.afterStore_pc_toNat i _ hallowed⟩
  · have hnocode : ¬ (s.isCode (s.storeAddress i) = true ∨ s.isCode (s.storeAddress i + 1#32) = true) := by
      simp [hcode, hcode']
    exact exec_of_checkStore_some hform
      (State.checkStore_of_pcWraps (fun hwraps => htop hwraps.2) ⟨hadmit, hadmit'⟩ hnocode hpc)

/-! ## The two policies (rules R46, R110; decisions D1 and D4) -/

/-- Settles O28: under `fault` the form stops both; under `snapshot` they complete with `r0` as any base. -/
theorem invalidFormFollowsThePolicy : Obligations.InvalidFormFollowsThePolicy := by
  refine ⟨fun s rs rb d rc hfault => ⟨exec_of_formStops ⟨rfl, hfault⟩, exec_of_formStops ⟨rfl, hfault⟩⟩,
    fun s rs d hsnap hallowed => ?_, fun s rs rb rc hsnap hallowed => ?_⟩
  · obtain ⟨t, hexec, hea, hhalf, hback, -⟩ := sthuStoresUpdatesAndCompletes rs 0 d s (.inr hsnap) hallowed
    exact ⟨t, hexec, hea, hhalf, hback⟩
  · obtain ⟨t, hexec, hea, hhalf, hback, -⟩ := sthuxStoresUpdatesAndCompletes rs 0 rb rc s (.inr hsnap) hallowed
    exact ⟨t, hexec, hea, hhalf, hback⟩

/-- Settles O29: under `fault` the first check of the store fails; under `wrap` the byte after the top address is
byte 0. -/
theorem storeAtTheTopFollowsThePolicy : Obligations.StoreAtTheTopFollowsThePolicy := by
  intro i s hea hform
  refine ⟨fun hfault => ?_, fun _ hallowed => ?_⟩
  · rw [← hea]
    exact exec_of_checkStore_some hform (State.checkStore_of_wraps ⟨hfault, hea⟩)
  · obtain ⟨hhigh, hlow, -⟩ := s.halfStoredAt_afterStore i
    rw [hea] at hhigh hlow
    exact ⟨s.afterStore i, (exec_next i s _).mpr ⟨hform, hea ▸ hallowed, rfl⟩, hhigh, hlow⟩

/-! ## What is stored twice (decision D5) -/

theorem State.storeAddress_of_gpr_eq {s t : State} (h : t.gpr = s.gpr) (i : Instr) :
    t.storeAddress i = s.storeAddress i := by
  have hx (q : Reg) : t.x q = s.x q := congrArg (·[q]) h
  cases i <;>
    simp only [State.storeAddress, State.eaSth, State.eaSthu, State.eaSthux, State.eaSthx, State.base0, hx]

theorem State.storeValue_of_gpr_eq {s t : State} (h : t.gpr = s.gpr) (i : Instr) :
    t.storeValue i = s.storeValue i :=
  congrArg (fun regs => trunc16 regs[i.sourceReg]) h

/-- Settles O35: a form without update leaves the registers, so it stores the same half word at the same address. -/
theorem repeatedStoreChangesNothingMore : Obligations.RepeatedStoreChangesNothingMore := by
  intro i s t u hupd hst htu a
  have hgpr : t.gpr = s.gpr := by
    obtain ⟨-, -, rfl⟩ := (exec_next i s t).mp hst
    exact s.afterStore_gpr_of_no_update i hupd
  have ht := exec_next_readByte i s t hst a
  rw [exec_next_readByte i t u htu a, State.storeAddress_of_gpr_eq hgpr, State.storeValue_of_gpr_eq hgpr, ht]
  split_ifs <;> rfl

/-! ## What no run changes (rules R32, R50, R55; decisions D5 and D9) -/

/-- From `s` to `t` the parameters, the bytes of program text and the bytes outside `MEM_ADMIT` stay as they are. -/
def ProtectedSame (s t : State) : Prop :=
  t.params = s.params ∧ ∀ a, s.isCode a = true ∨ s.admits a = false → t.readByte a = s.readByte a

theorem ProtectedSame.refl (s : State) : ProtectedSame s s := ⟨rfl, fun _ _ => rfl⟩

/-- Which bytes are protected is the parameters' to say, and those stay. -/
theorem ProtectedSame.trans {s t u : State} (hst : ProtectedSame s t) (htu : ProtectedSame t u) :
    ProtectedSame s u := by
  obtain ⟨hparams, hbytes⟩ := hst
  obtain ⟨hparams', hbytes'⟩ := htu
  refine ⟨hparams'.trans hparams, fun a ha => (hbytes' a ?_).trans (hbytes a ha)⟩
  simpa only [State.isCode, State.admits, hparams] using ha

/-- The check `StoreNotAdmitted` passed, so no byte outside `MEM_ADMIT` is written. -/
theorem State.readByte_afterStore_of_not_admits {s : State} {i : Instr} (hallowed : s.storeAllowed (s.storeAddress i))
    {a : Addr} (ha : s.admits a = false) : (s.afterStore i).readByte a = s.readByte a := by
  obtain ⟨-, ⟨hadmit, hadmit'⟩, -, -⟩ := hallowed
  have hne {ea : Addr} (h : s.admits ea = true) : a ≠ ea := by
    rintro rfl
    simp [ha] at h
  exact s.readByte_afterStore_of_ne i a (hne hadmit) (hne hadmit')

theorem protectedSame_afterStore {s : State} {i : Instr} (hallowed : s.storeAllowed (s.storeAddress i)) :
    ProtectedSame s (s.afterStore i) := by
  refine ⟨s.afterStore_params i, fun a ha => ?_⟩
  rcases ha with hcode | hadmit
  · exact State.readByte_afterStore_of_isCode hallowed hcode
  · exact State.readByte_afterStore_of_not_admits hallowed hadmit

/-- Settles O42: every completed step is an allowed store, which leaves what is protected, and so does a run of them. -/
theorem runsKeepTextParametersAndUnadmittedBytes : Obligations.RunsKeepTextParametersAndUnadmittedBytes := by
  refine run_rel ProtectedSame ProtectedSame.refl fun s t u hst htu => ?_
  obtain ⟨i, -, hallowed, rfl⟩ := step_next_afterStore s t hst
  exact (protectedSame_afterStore hallowed).trans htu

/-! ## The state at reset (rules R6, R31, R160; log entry 5) -/

theorem State.reset_pc_toNat_mod_four : State.reset.pc.toNat % 4 = 0 := by decide

/-- Settles O41: no memory, an aligned start address, no reservation table. -/
theorem resetMeetsTheInvariant : Obligations.ResetMeetsTheInvariant :=
  ⟨State.wf_reset, State.reset_pc_toNat_mod_four, rfl⟩

/-- Settles O46: the defaults as `State.reset` has them, and the aligned start address. -/
theorem resetTakesTheSpecsDefaults : Obligations.ResetTakesTheSpecsDefaults :=
  ⟨rfl, rfl, rfl, rfl, State.reset_pc_toNat_mod_four⟩

end Sys2Proof.Machine
end
